-- ==== Sys2Proof/Config.lean ====
section
/-! DEFINITION. What is fixed for this machine: the parameters of 00_scope.md R7, the open
parameters of 92_eei_decisions.md, and the one value the spec leaves free. -/

namespace Sys2Proof.Config

/-- `XLEN` (R7): the width in bits of A, D, every RAM word and the ALU. -/
def xlen : Nat := 16

/-- `PCLEN` (R7): the width in bits of the stored program counter. -/
def pclen : Nat := 16

/-- `RAM_WORDS` (R7): data addresses run from 0 to `ramWords - 1` = 24576. -/
@[simp] abbrev ramWords : Nat := 24577

/-- `SCREEN_BASE` (R7): the first word of the screen buffer. -/
@[simp] abbrev screenBase : Nat := 16384

/-- `SCREEN_WORDS` (R7): the words of the screen buffer. -/
@[simp] abbrev screenWords : Nat := 8192

/-- `KBD_ADDR` (R7): the address of the keyboard register. -/
@[simp] abbrev kbdAddr : Nat := 24576

/-- `IMEM_SLOTS` (R7): instruction indices run from 0 to `imemSlots - 1` = 32766. -/
@[simp] abbrev imemSlots : Nat := 32767

/-- `VAR_BASE` (R7): the first address the assembler gives to a variable. -/
@[simp] abbrev varBase : Nat := 16

/-- `BATCH` (R7): the host's usual batch size.  It is open (any positive value, D25): the host's batch
operation takes its size as an argument and no rule of the core reads this default. -/
def batch : Nat := 100000

/-- `DEC_QUIRK` (R7, R162, R163; D6): true, the default, is this hardware: `D-1` and `A-1` add one.
Every operation that depends on it takes the value as an argument, so both values are specified. -/
def decQuirk : Bool := true

/-- `ASM_DEST_LOOKUP_QUIRK` (R119; D20): the source's treatment of a three-token line, off by default. -/
def asmDestLookupQuirk : Bool := false

/-- `PIXEL_ON_IS_DARK` (R61, N14; D22): whether bit value 1 is the dark pixel.  OPEN in the spec, so a
free value: it has no body and nothing can be proved of it. -/
opaque pixelOnIsDark : Bool

end Sys2Proof.Config
end

