-- ==== Sys2Proof/Word.lean ====
section
/-! DEFINITION. The 16-bit word of 00_scope.md R9 to R12 and its readings. -/

namespace Sys2Proof

/-- A `Word` (R9): 16 bits, bit 15 the most significant; the width is `XLEN`. -/
abbrev Word := BitVec 16

/-- `u16(w)` (R10): the unsigned reading, 0 to 65535. -/
abbrev Word.u16 (w : Word) : Nat := w.toNat

/-- `s16(w)` (R10): the two's-complement reading, -32768 to 32767. -/
abbrev Word.s16 (w : Word) : Int := w.toInt

/-- `w16(n)` (R10): the word whose unsigned value is `n mod 65536`. -/
abbrev Word.w16 (n : Int) : Word := BitVec.ofInt 16 n

end Sys2Proof
end

