-- ==== Sys2Proof/Syntax.lean ====
section
/-! DEFINITION. The instructions of 30_encoding.md part 1: the fields of the C-instruction, the typed
instruction as the spec writes it, and `Instr`, one constructor per row of spec/opcode_table.json. -/

namespace Sys2Proof

/-- `Destination` (R81): which of A, M and D receive the result; `noDest` is the spec's `None`. -/
inductive Dest
  | noDest | m | d | md | a | am | ad | amd
  deriving DecidableEq, Repr

/-- `Jump` (R82): the seven jump policies and `noJump`, the spec's `None`. -/
inductive Jump
  | noJump | jgt | jeq | jge | jlt | jne | jle | jmp
  deriving DecidableEq, Repr

/-- `Comp` (R83): the 34 operations of the ALU, in the spec's order: the 18 classic forms, the 10 memory
mirrors, the 6 one-bit shifts. -/
inductive Comp
  | zero | one | minusOne | passD | passA | notD | notA | negD | negA
  | incD | incA | decD | decA | addDA | subDA | subAD | andDA | orDA
  | passM | notM | negM | incM | decM | addDM | subDM | subMD | andDM | orDM
  | shlA | shlD | shlM | shrA | shrD | shrM
  deriving DecidableEq, Repr

/-- The typed instruction exactly as R80 gives it: four variants, closed. -/
inductive TypedInstr
  | A (v : Word)
  | C (dest : Dest) (comp : Comp) (jump : Jump)
  | LABEL
  | NONE
  deriving DecidableEq, Repr

/-- The instruction set, one constructor per row of the opcode table.  `Instr.typed` (Decode.lean) is the
same instruction in the spec's four variants. -/
inductive Instr
  /-- `@value`, the typed `A(v)` (R130): any word, though only values below 32768 have a 16-bit form. -/
  | atValue (v : Word)
  /-- `0` (R151) -/
  | zero (dest : Dest) (jump : Jump)
  /-- `1` (R152) -/
  | one (dest : Dest) (jump : Jump)
  /-- `-1` (R153) -/
  | minusOne (dest : Dest) (jump : Jump)
  /-- `D` (R154) -/
  | passD (dest : Dest) (jump : Jump)
  /-- `A` (R155) -/
  | passA (dest : Dest) (jump : Jump)
  /-- `!D` (R156) -/
  | notD (dest : Dest) (jump : Jump)
  /-- `!A` (R157) -/
  | notA (dest : Dest) (jump : Jump)
  /-- `-D` (R158) -/
  | negD (dest : Dest) (jump : Jump)
  /-- `-A` (R159) -/
  | negA (dest : Dest) (jump : Jump)
  /-- `D+1` (R160) -/
  | incD (dest : Dest) (jump : Jump)
  /-- `A+1` (R161) -/
  | incA (dest : Dest) (jump : Jump)
  /-- `D-1` (R162) -/
  | decD (dest : Dest) (jump : Jump)
  /-- `A-1` (R163) -/
  | decA (dest : Dest) (jump : Jump)
  /-- `D+A` (R164) -/
  | addDA (dest : Dest) (jump : Jump)
  /-- `D-A` (R165) -/
  | subDA (dest : Dest) (jump : Jump)
  /-- `A-D` (R166) -/
  | subAD (dest : Dest) (jump : Jump)
  /-- `D&A` (R167) -/
  | andDA (dest : Dest) (jump : Jump)
  /-- `D|A` (R168) -/
  | orDA (dest : Dest) (jump : Jump)
  /-- `M` (R171) -/
  | passM (dest : Dest) (jump : Jump)
  /-- `!M` (R172) -/
  | notM (dest : Dest) (jump : Jump)
  /-- `-M` (R173) -/
  | negM (dest : Dest) (jump : Jump)
  /-- `M+1` (R174) -/
  | incM (dest : Dest) (jump : Jump)
  /-- `M-1` (R175) -/
  | decM (dest : Dest) (jump : Jump)
  /-- `D+M` (R176) -/
  | addDM (dest : Dest) (jump : Jump)
  /-- `D-M` (R177) -/
  | subDM (dest : Dest) (jump : Jump)
  /-- `M-D` (R178) -/
  | subMD (dest : Dest) (jump : Jump)
  /-- `D&M` (R179) -/
  | andDM (dest : Dest) (jump : Jump)
  /-- `D|M` (R180) -/
  | orDM (dest : Dest) (jump : Jump)
  /-- `A<<` (R183) -/
  | shlA (dest : Dest) (jump : Jump)
  /-- `D<<` (R184) -/
  | shlD (dest : Dest) (jump : Jump)
  /-- `M<<` (R185) -/
  | shlM (dest : Dest) (jump : Jump)
  /-- `A>>` (R186) -/
  | shrA (dest : Dest) (jump : Jump)
  /-- `D>>` (R187) -/
  | shrD (dest : Dest) (jump : Jump)
  /-- `M>>` (R188) -/
  | shrM (dest : Dest) (jump : Jump)
  /-- `NONE` (R132): the filler of every slot past the program -/
  | noneOp
  /-- `LABEL` (R131) -/
  | labelOp
  deriving DecidableEq, Repr

/-- What a 16-bit word decodes to, and what an instruction-memory slot holds (R96, R97): an instruction,
or a word that encodes none.  A slot holds the second only if a loader let an illegal word through. -/
inductive Slot
  | instr (i : Instr)
  | illegal (w : Word)
  deriving DecidableEq, Repr

end Sys2Proof
end

