-- ==== Sys2Proof/WellFormed.lean ====
section
/-! DEFINITION. The one well-formedness check an instruction has: that it has a 16-bit word. -/

namespace Sys2Proof

/-- An instruction has a 16-bit word unless it is `A(v)` with `v[15] = 1` (R86, R96).  The fields of every
other instruction are closed types, so nothing else can be ill-formed (R140: all 2176 combinations are legal).
The machine runs an instruction that fails this check too (R86: "has full semantics"); only its
encoding is missing. -/
def Instr.wf : Instr → Bool
  | .atValue v => !v.msb
  | .zero _ _ | .one _ _ | .minusOne _ _ | .passD _ _ | .passA _ _ | .notD _ _
  | .notA _ _ | .negD _ _ | .negA _ _ | .incD _ _ | .incA _ _ | .decD _ _
  | .decA _ _ | .addDA _ _ | .subDA _ _ | .subAD _ _ | .andDA _ _ | .orDA _ _
  | .passM _ _ | .notM _ _ | .negM _ _ | .incM _ _ | .decM _ _ | .addDM _ _
  | .subDM _ _ | .subMD _ _ | .andDM _ _ | .orDM _ _ | .shlA _ _ | .shlD _ _
  | .shlM _ _ | .shrA _ _ | .shrD _ _ | .shrM _ _ => true
  | .noneOp | .labelOp => true

/-- A program image fits the instruction memory (R105, R121): at most `IMEM_SLOTS` instructions. -/
def programFits (prog : List Instr) : Bool := prog.length ≤ Config.imemSlots

end Sys2Proof
end

