-- ==== Sys2Proof/Decode.lean ====
section
/-! DEFINITION. The 16-bit words of the instructions (30_encoding.md part 2): the decoder, total on every
word (R96), then the encoder, its partial inverse, both written from the tables of R85 to R94. -/

namespace Sys2Proof

/-- The 34 comps in the order of R83: classic forms, then memory mirrors, then shifts. -/
def Comp.all : List Comp :=
  [.zero, .one, .minusOne, .passD, .passA, .notD, .notA, .negD, .negA] ++
  [.incD, .incA, .decD, .decA, .addDA, .subDA, .subAD, .andDA, .orDA] ++
  [.passM, .notM, .negM, .incM, .decM, .addDM, .subDM, .subMD, .andDM, .orDM] ++
  [.shlA, .shlD, .shlM, .shrA, .shrD, .shrM]

/-- The class bits `W[15:13]` of a comp (R87): `111` for the classic and memory comps, `101` for the shifts. -/
def Comp.wordClass : Comp → BitVec 3
  | .zero | .one | .minusOne | .passD | .passA | .notD | .notA | .negD | .negA
  | .incD | .incA | .decD | .decA | .addDA | .subDA | .subAD | .andDA | .orDA
  | .passM | .notM | .negM | .incM | .decM | .addDM | .subDM | .subMD | .andDM | .orDM => 0b111#3
  | .shlA | .shlD | .shlM | .shrA | .shrD | .shrM => 0b101#3

/-- The selector `W[12:6] = (a, c1, ..., c6)` of a comp, the tables of R88, R89 and R90 row by row. -/
def Comp.selector : Comp → BitVec 7
  | .zero => 0b0101010#7
  | .one => 0b0111111#7
  | .minusOne => 0b0111010#7
  | .passD => 0b0001100#7
  | .passA => 0b0110000#7
  | .notD => 0b0001101#7
  | .notA => 0b0110001#7
  | .negD => 0b0001111#7
  | .negA => 0b0110011#7
  | .incD => 0b0011111#7
  | .incA => 0b0110111#7
  | .decD => 0b0001110#7
  | .decA => 0b0110010#7
  | .addDA => 0b0000010#7
  | .subDA => 0b0010011#7
  | .subAD => 0b0000111#7
  | .andDA => 0b0000000#7
  | .orDA => 0b0010101#7
  | .passM => 0b1110000#7
  | .notM => 0b1110001#7
  | .negM => 0b1110011#7
  | .incM => 0b1110111#7
  | .decM => 0b1110010#7
  | .addDM => 0b1000010#7
  | .subDM => 0b1010011#7
  | .subMD => 0b1000111#7
  | .andDM => 0b1000000#7
  | .orDM => 0b1010101#7
  | .shlA => 0b0100000#7
  | .shlD => 0b0110000#7
  | .shlM => 0b1100000#7
  | .shrA => 0b0000000#7
  | .shrD => 0b0010000#7
  | .shrM => 0b1000000#7

/-- The word of a comp with `ddd = jjj = 000`, the column `match` of R88 to R90. -/
def Comp.matchWord (c : Comp) : Word := c.wordClass ++ c.selector ++ 0#6

/-- The destination field `ddd = (d1, d2, d3)`: d1 is A, d2 is D, d3 is M (R91). -/
def Dest.bits : Dest → BitVec 3
  | .noDest => 0b000#3
  | .m => 0b001#3
  | .d => 0b010#3
  | .md => 0b011#3
  | .a => 0b100#3
  | .am => 0b101#3
  | .ad => 0b110#3
  | .amd => 0b111#3

/-- The destination a `ddd` field names: all eight values are legal (R91). -/
def Dest.ofBits (ddd : BitVec 3) : Dest :=
  match ddd.getLsbD 2, ddd.getLsbD 1, ddd.getLsbD 0 with
  | false, false, false => .noDest
  | false, false, true => .m
  | false, true, false => .d
  | false, true, true => .md
  | true, false, false => .a
  | true, false, true => .am
  | true, true, false => .ad
  | true, true, true => .amd

/-- The jump field `jjj = (j1, j2, j3)`: j1 jumps when negative, j2 when zero, j3 when positive (R92). -/
def Jump.bits : Jump → BitVec 3
  | .noJump => 0b000#3
  | .jgt => 0b001#3
  | .jeq => 0b010#3
  | .jge => 0b011#3
  | .jlt => 0b100#3
  | .jne => 0b101#3
  | .jle => 0b110#3
  | .jmp => 0b111#3

/-- The jump policy a `jjj` field names: all eight values are legal (R92). -/
def Jump.ofBits (jjj : BitVec 3) : Jump :=
  match jjj.getLsbD 2, jjj.getLsbD 1, jjj.getLsbD 0 with
  | false, false, false => .noJump
  | false, false, true => .jgt
  | false, true, false => .jeq
  | false, true, true => .jge
  | true, false, false => .jlt
  | true, false, true => .jne
  | true, true, false => .jle
  | true, true, true => .jmp

/-- The instruction in the four variants of R80. -/
def Instr.typed : Instr → TypedInstr
  | .atValue v => .A v
  | .zero dest jump => .C dest .zero jump
  | .one dest jump => .C dest .one jump
  | .minusOne dest jump => .C dest .minusOne jump
  | .passD dest jump => .C dest .passD jump
  | .passA dest jump => .C dest .passA jump
  | .notD dest jump => .C dest .notD jump
  | .notA dest jump => .C dest .notA jump
  | .negD dest jump => .C dest .negD jump
  | .negA dest jump => .C dest .negA jump
  | .incD dest jump => .C dest .incD jump
  | .incA dest jump => .C dest .incA jump
  | .decD dest jump => .C dest .decD jump
  | .decA dest jump => .C dest .decA jump
  | .addDA dest jump => .C dest .addDA jump
  | .subDA dest jump => .C dest .subDA jump
  | .subAD dest jump => .C dest .subAD jump
  | .andDA dest jump => .C dest .andDA jump
  | .orDA dest jump => .C dest .orDA jump
  | .passM dest jump => .C dest .passM jump
  | .notM dest jump => .C dest .notM jump
  | .negM dest jump => .C dest .negM jump
  | .incM dest jump => .C dest .incM jump
  | .decM dest jump => .C dest .decM jump
  | .addDM dest jump => .C dest .addDM jump
  | .subDM dest jump => .C dest .subDM jump
  | .subMD dest jump => .C dest .subMD jump
  | .andDM dest jump => .C dest .andDM jump
  | .orDM dest jump => .C dest .orDM jump
  | .shlA dest jump => .C dest .shlA jump
  | .shlD dest jump => .C dest .shlD jump
  | .shlM dest jump => .C dest .shlM jump
  | .shrA dest jump => .C dest .shrA jump
  | .shrD dest jump => .C dest .shrD jump
  | .shrM dest jump => .C dest .shrM jump
  | .noneOp => .NONE
  | .labelOp => .LABEL

/-- The instruction of a comp, a destination and a jump: the C variant of R80. -/
def Instr.ofComp (c : Comp) (dest : Dest) (jump : Jump) : Instr :=
  match c with
  | .zero => .zero dest jump
  | .one => .one dest jump
  | .minusOne => .minusOne dest jump
  | .passD => .passD dest jump
  | .passA => .passA dest jump
  | .notD => .notD dest jump
  | .notA => .notA dest jump
  | .negD => .negD dest jump
  | .negA => .negA dest jump
  | .incD => .incD dest jump
  | .incA => .incA dest jump
  | .decD => .decD dest jump
  | .decA => .decA dest jump
  | .addDA => .addDA dest jump
  | .subDA => .subDA dest jump
  | .subAD => .subAD dest jump
  | .andDA => .andDA dest jump
  | .orDA => .orDA dest jump
  | .passM => .passM dest jump
  | .notM => .notM dest jump
  | .negM => .negM dest jump
  | .incM => .incM dest jump
  | .decM => .decM dest jump
  | .addDM => .addDM dest jump
  | .subDM => .subDM dest jump
  | .subMD => .subMD dest jump
  | .andDM => .andDM dest jump
  | .orDM => .orDM dest jump
  | .shlA => .shlA dest jump
  | .shlD => .shlD dest jump
  | .shlM => .shlM dest jump
  | .shrA => .shrA dest jump
  | .shrD => .shrD dest jump
  | .shrM => .shrM dest jump

/-- The instruction of a typed form (R80). -/
def Instr.ofTyped : TypedInstr → Instr
  | .A v => .atValue v
  | .C dest comp jump => .ofComp comp dest jump
  | .LABEL => .labelOp
  | .NONE => .noneOp

/-- The word of `NONE` (R94). -/
def noneWord : Word := 0x8000#16

/-- The word of `LABEL` (R94). -/
def labelWord : Word := 0x8001#16

/-- `W & 0xFFC0` looked up in the 34 match values (R93). -/
def compOfWord (w : Word) : Option Comp :=
  Comp.all.find? fun c => c.matchWord == (w &&& 0xFFC0#16)

/-- The decoder (R96), total: an instruction, or `Illegal(W)` for each of the words of R95. -/
def decode (w : Word) : Slot :=
  if w.getLsbD 15 = false then .instr (.atValue ((w.extractLsb' 0 15).zeroExtend 16))
  else if w = noneWord then .instr .noneOp
  else if w = labelWord then .instr .labelOp
  else match compOfWord w with
    | some c => .instr (.ofComp c (.ofBits (w.extractLsb' 3 3)) (.ofBits (w.extractLsb' 0 3)))
    | none => .illegal w

/-- The full word of a C-instruction (R93): `match(comp) | (ddd << 3) | jjj`. -/
def encodeC (dest : Dest) (c : Comp) (jump : Jump) : Word :=
  c.matchWord ||| (dest.bits.zeroExtend 16 <<< 3) ||| jump.bits.zeroExtend 16

/-- The encoder (R96), the partial inverse of `decode`: `none` for `A(v)` with `v[15] = 1` only. -/
def encode (i : Instr) : Option Word :=
  match i.typed with
  | .A v => if v.getLsbD 15 then none else some v
  | .C dest c jump => some (encodeC dest c jump)
  | .LABEL => some labelWord
  | .NONE => some noneWord

/-- The instruction in a slot, if it holds one. -/
def Slot.instr? : Slot → Option Instr
  | .instr i => some i
  | .illegal _ => none

/-- The word given by its low `nbits` bits (at most 16), the bits above being 0.  The opcode table numbers
the bits of the one word of an instruction as R9 does, so this is the word itself. -/
def tableWord (nbits w : Nat) : Word := BitVec.ofNat 16 (w % 2 ^ nbits)

/-- The instruction the decoder reads from the instruction word whose low `nbits` bits are those of `w`. -/
def decodeTableWord (nbits w : Nat) : Option Instr := (decode (tableWord nbits w)).instr?

end Sys2Proof
end

