-- ==== Sys2Proof/Machine/State.lean ====
section
/-! DEFINITION. The state of the machine, everything 10_state.md gives it, as plain data; its value after
power-on reset (R39, R260); and the reasons a step can stop. -/

namespace Sys2Proof.Machine

/-- A sparse array: pairs of an index and its content, indices strictly rising, no entry equal to what an
unlisted index holds (`Cells.wf`, Ops.lean).  Equal arrays are then equal lists. -/
abbrev Cells (α : Type) := List (Nat × α)

/-- The data memory RAM (R29): one 16-bit word per data address (R53: no byte-level view, log 1).  An
unlisted address holds `0x0000`, the reset value of every word. -/
abbrev Memory := Cells Word

/-- The instruction memory IMEM (R30): one slot per instruction index.  An unlisted slot holds `NONE`, the
filler of R121 and the reset content (R39). -/
abbrev InstrMemory := Cells Slot

/-- A breakpoint predicate (R31, R240): a component of the state equals a value. -/
inductive Breakpoint
  | A (v : Word)
  | D (v : Word)
  | PC (n : Word)
  | RAM (address v : Word)
  deriving DecidableEq, Repr

/-- The fault latch (R35): `NoFault`, or the one record of R229 to R231. -/
inductive FaultLatch
  | noFault
  | memFault (addr : Word)
  | illegalInstruction (word : Word)
  deriving DecidableEq, Repr

/-- The latch `stopped` (R36): a subset of `{PcOverflow, Breakpoint}`. -/
structure StopReasons where
  pcOverflow : Bool
  breakpoint : Bool
  deriving DecidableEq, Repr

/-- The empty set of stop reasons. -/
def StopReasons.empty : StopReasons := ⟨false, false⟩

/-- A piece of program text: a name, a mnemonic or a line, as its characters. -/
abbrev Text := List Char

/-- The assembler's symbol table, owned by the CPU state object (R33): names bound to 16-bit addresses, and
the cursor `current_variable`. -/
structure SymbolTable where
  entries : List (Text × Word)
  cursor : Word
  deriving DecidableEq, Repr

/-- The fresh table (R33, R108): 23 seeded names, the cursor at 16. -/
def SymbolTable.fresh : SymbolTable where
  entries :=
    [(['R', '0'], 0#16), (['R', '1'], 1#16), (['R', '2'], 2#16), (['R', '3'], 3#16),
     (['R', '4'], 4#16), (['R', '5'], 5#16), (['R', '6'], 6#16), (['R', '7'], 7#16)] ++
    [(['R', '8'], 8#16), (['R', '9'], 9#16), (['R', '1', '0'], 10#16), (['R', '1', '1'], 11#16),
     (['R', '1', '2'], 12#16), (['R', '1', '3'], 13#16), (['R', '1', '4'], 14#16),
     (['R', '1', '5'], 15#16)] ++
    [(['S', 'P'], 0#16), (['L', 'C', 'L'], 1#16), (['A', 'R', 'G'], 2#16),
     (['T', 'H', 'I', 'S'], 3#16), (['T', 'H', 'A', 'T'], 4#16)] ++
    [(['S', 'C', 'R', 'E', 'E', 'N'], BitVec.ofNat 16 Config.screenBase),
     (['K', 'B', 'D'], BitVec.ofNat 16 Config.kbdAddr)]
  cursor := BitVec.ofNat 16 Config.varBase

/-- The state: every row of the table of R20. -/
structure State where
  /-- register A (R21) -/
  a : Word
  /-- register D (R22) -/
  d : Word
  /-- the program counter, an instruction index (R24) -/
  pc : Word
  /-- the data memory (R29) -/
  ram : Memory
  /-- the instruction memory (R30) -/
  imem : InstrMemory
  /-- the breakpoint set BP (R31), in the canonical order of `Breakpoint.key` (log 20) -/
  bp : List Breakpoint
  /-- the fault latch (R35) -/
  fault : FaultLatch
  /-- the stop latch (R36) -/
  stopped : StopReasons
  /-- the assembler's symbol table (R20, R33) -/
  symbols : SymbolTable
  deriving DecidableEq, Repr

/-- Why the core has no step.  Both are raised by `coreStep` (Sequencer.lean), never by an instruction's
meaning: an instruction that faults takes a next state with the latch set (R228). -/
inductive Fault
  /-- Raised by a step from a state whose fault latch is set: "While it is set the core has no step" (R35,
  R220).  The record is the latch's.  Safe: the hardware makes no step there either. -/
  | halted (latch : FaultLatch)
  /-- Raised by a step from a state whose pc is not a slot: `Fetch` is never called there (R25, R58).  No
  run reaches it, since every step leaves `pc ≤ 32766` (R28).  Safe. -/
  | pcOutOfRange (pc : Word)
  deriving DecidableEq, Repr

/-- Why an instruction has no meaning in the model. -/
inductive Refusal
  /-- Raised by `exec` for an instruction that has no meaning yet; no arm of the model raises it.  Safe. -/
  | notModelled (mnemonic : String)
  deriving DecidableEq, Repr

/-- The machine right after power-on reset (R39, R260): every field at the value the spec states. -/
def State.reset : State where
  a := 0x0000#16
  d := 0x0000#16
  pc := 0#16
  ram := []
  imem := []
  bp := []
  fault := .noFault
  stopped := .empty
  symbols := .fresh

end Sys2Proof.Machine
end

