-- ==== Sys2Proof/Machine/Ops.lean ====
section
/-! DEFINITION. The named operations over registers, memories, the two latches, the breakpoint set and the
symbol table.  Raising a fault (R228) and what undoes it are here. -/

namespace Sys2Proof.Machine

/-! ### Sparse arrays -/

/-- The content of index `i`: the listed one, or what an unlisted index holds. -/
def Cells.read {α : Type} (dflt : α) : Cells α → Nat → α
  | [], _ => dflt
  | (k, v) :: rest, i => if k = i then v else Cells.read dflt rest i

/-- The array without its entry for index `i`. -/
def Cells.erase {α : Type} (cells : Cells α) (i : Nat) : Cells α :=
  cells.filter fun c => c.1 != i

/-- The array with an entry for index `i` put before the first larger index. -/
def Cells.place {α : Type} (i : Nat) (x : α) : Cells α → Cells α
  | [] => [(i, x)]
  | (k, v) :: rest => if i < k then (i, x) :: (k, v) :: rest else (k, v) :: Cells.place i x rest

/-- The array with index `i` holding `x`.  Writing what an unlisted index holds removes the entry. -/
def Cells.write {α : Type} [DecidableEq α] (dflt : α) (cells : Cells α) (i : Nat) (x : α) : Cells α :=
  if x = dflt then Cells.erase cells i else Cells.place i x (Cells.erase cells i)

/-- The canonical form: indices strictly rising and below `bound`, no entry equal to `dflt`. -/
def Cells.wf {α : Type} [DecidableEq α] (dflt : α) (bound : Nat) (cells : Cells α) : Bool :=
  decide (List.Pairwise (fun c c' : Nat × α => c.1 < c'.1) cells) &&
    cells.all fun c => decide (c.1 < bound) && decide (c.2 ≠ dflt)

/-! ### The data memory -/

/-- The data addresses that exist are 0 to 24576 (R50, R55). -/
def dataAddrValid (addr : Word) : Bool := addr.u16 < Config.ramWords

/-- The word at data address `addr` of a memory; an unlisted address holds `0x0000` (R29). -/
def Memory.read (m : Memory) (addr : Word) : Word := Cells.read 0x0000#16 m addr.u16

/-- The memory with all 16 bits of the word at `addr` set to `v` (R56). -/
def Memory.write (m : Memory) (addr v : Word) : Memory := Cells.write 0x0000#16 m addr.u16 v

/-- The canonical form of a data memory. -/
def Memory.wf (m : Memory) : Bool := Cells.wf 0x0000#16 Config.ramWords m

/-- `MemRead(addr, 16)` (R55): the word, or `none` where the primitive raises `MemFault(addr)`. -/
def memRead (s : State) (addr : Word) : Option Word :=
  if dataAddrValid addr then some (Memory.read s.ram addr) else none

/-- `RAM[addr] <- v` at an address known to exist. -/
def State.setRam (s : State) (addr v : Word) : State := { s with ram := Memory.write s.ram addr v }

/-- `MemWrite(addr, 16, v)` (R56): the new state, or `none` where the primitive raises `MemFault(addr)`. -/
def memWrite (s : State) (addr v : Word) : Option State :=
  if dataAddrValid addr then some (s.setRam addr v) else none

/-! ### The instruction memory -/

/-- The slot at instruction index `i`; an unlisted slot holds `NONE` (R30, R121). -/
def InstrMemory.read (m : InstrMemory) (i : Nat) : Slot := Cells.read (.instr .noneOp) m i

/-- The instruction memory with slot `i` replaced. -/
def InstrMemory.write (m : InstrMemory) (i : Nat) (x : Slot) : InstrMemory :=
  Cells.write (.instr .noneOp) m i x

/-- The canonical form of an instruction memory. -/
def InstrMemory.wf (m : InstrMemory) : Bool := Cells.wf (.instr .noneOp) Config.imemSlots m

/-- The instruction indices that exist are 0 to 32766 (R25). -/
def slotValid (pc : Word) : Bool := pc.u16 < Config.imemSlots

/-- `Fetch(pc)` (R58): the slot the program counter names; nothing changes. -/
def fetch (s : State) : Slot := InstrMemory.read s.imem s.pc.u16

/-- The slots of a program laid out from index `i` on, filler left unlisted (R121). -/
def layOut : Nat → List Instr → InstrMemory
  | _, [] => []
  | i, .noneOp :: rest => layOut (i + 1) rest
  | i, x :: rest => (i, .instr x) :: layOut (i + 1) rest

/-! ### Registers -/

/-- `x[A] <- v` (R13). -/
def State.setA (s : State) (v : Word) : State := { s with a := v }

/-- `x[D] <- v` (R13). -/
def State.setD (s : State) (v : Word) : State := { s with d := v }

/-- `pc <- t` (R13). -/
def State.setPc (s : State) (t : Word) : State := { s with pc := t }

/-- `pc <- pc + 1`, modulo 65536 (R26). -/
def State.advance (s : State) : State := s.setPc (s.pc + 1#16)

/-! ### Faults and stops -/

/-- `raise F(info)` (R228): nothing but the latch changes; pc still names the faulting instruction. -/
def State.raise (s : State) (f : FaultLatch) : State := { s with fault := f }

/-- The fault code and the recorded value (R229); 0 stands for no fault. -/
def FaultLatch.code : FaultLatch → Nat
  | .noFault => 0
  | .memFault _ => 1
  | .illegalInstruction _ => 2

/-- Whether a fault is latched. -/
def State.faulted (s : State) : Bool := s.fault != .noFault

/-- `stop(PcOverflow)` (R224): the reason joins the set. -/
def State.stopPcOverflow (s : State) : State := { s with stopped := { s.stopped with pcOverflow := true } }

/-- `stop(Breakpoint)` (R224): the reason joins the set. -/
def State.stopBreakpoint (s : State) : State := { s with stopped := { s.stopped with breakpoint := true } }

/-- `stopped` is emptied when the host starts a run or a single step (R36, R223). -/
def State.clearStopped (s : State) : State := { s with stopped := .empty }

/-- Whether `stopped` is non-empty. -/
def StopReasons.any (r : StopReasons) : Bool := r.pcOverflow || r.breakpoint

/-! ### The breakpoint set -/

/-- A number for each predicate, distinct for distinct predicates, by which the set is kept in order. -/
def Breakpoint.key : Breakpoint → Nat
  | .A v => v.toNat
  | .D v => 65536 + v.toNat
  | .PC n => 2 * 65536 + n.toNat
  | .RAM address v => 3 * 65536 + address.toNat * 65536 + v.toNat

/-- Insertion into the set: nothing changes if the predicate is there already (R243). -/
def insertBreakpoint (b : Breakpoint) : List Breakpoint → List Breakpoint
  | [] => [b]
  | c :: rest =>
    if b = c then c :: rest
    else if b.key < c.key then b :: c :: rest
    else c :: insertBreakpoint b rest

/-- Removal by exact value equality (R243). -/
def removeBreakpoint (b : Breakpoint) (bp : List Breakpoint) : List Breakpoint :=
  bp.filter fun c => c != b

/-- The canonical form of the set: keys strictly rising, so no predicate twice. -/
def breakpointsWf (bp : List Breakpoint) : Bool :=
  decide (List.Pairwise (fun b c : Breakpoint => b.key < c.key) bp)

/-- Whether a predicate matches the state (R240); a `RAM` predicate above 24576 never does. -/
def Breakpoint.holds (s : State) : Breakpoint → Bool
  | .A v => s.a == v
  | .D v => s.d == v
  | .PC n => s.pc == n
  | .RAM address v => memRead s address == some v

/-! ### The symbol table -/

/-- The address a name is bound to. -/
def SymbolTable.lookup (t : SymbolTable) (name : Text) : Option Word :=
  (t.entries.find? fun e => e.1 == name).map fun e => e.2

/-- The table with a name not yet in it bound to an address. -/
def SymbolTable.bind (t : SymbolTable) (name : Text) (addr : Word) : SymbolTable :=
  { t with entries := t.entries ++ [(name, addr)] }

/-- The form of a table: no name bound twice (N22: "keys unique"). -/
def SymbolTable.wf (t : SymbolTable) : Bool :=
  decide (List.Pairwise (fun e f : Text × Word => e.1 ≠ f.1) t.entries)

end Sys2Proof.Machine
end

