-- ==== Sys2Proof/Machine/Operands.lean ====
section
/-! DEFINITION. The operands and targets of a C-instruction and the ALU: which comps read M, which
destinations name which target, the sampled operand M, and the 34 ALU functions. -/

namespace Sys2Proof.Machine

/-- `shl1(w) = {w[14:0], 0b0}` (R12, R182): bit 15 is lost, bit 0 becomes 0. -/
def shl1 (w : Word) : Word := w <<< 1

/-- `shr1(w) = {0b0, w[15:1]}` (R12, R182): bit 0 is lost, bit 15 becomes 0, a logical shift (D7). -/
def shr1 (w : Word) : Word := w >>> 1

/-- The decrement of `D-1` and `A-1` (R162, R163): with the defect it adds one. -/
def decrement (quirk : Bool) (w : Word) : Word := if quirk then w + 1#16 else w - 1#16

/-- `readsM` (R57, R141): the 12 comps that name M. -/
def readsM : Comp → Bool
  | .passM | .notM | .negM | .incM | .decM | .addDM | .subDM | .subMD | .andDM | .orDM => true
  | .shlM | .shrM => true
  | .zero | .one | .minusOne | .passD | .passA | .notD | .notA | .negD | .negA => false
  | .incD | .incA | .decD | .decA | .addDA | .subDA | .subAD | .andDA | .orDA => false
  | .shlA | .shlD | .shrA | .shrD => false

/-- `toA` (R81): the destination names A. -/
def toA : Dest → Bool
  | .a | .am | .ad | .amd => true
  | .noDest | .m | .d | .md => false

/-- `toD` (R81): the destination names D. -/
def toD : Dest → Bool
  | .d | .md | .ad | .amd => true
  | .noDest | .m | .a | .am => false

/-- `toM`, also `writesM` (R81, R141): the destination names M. -/
def toM : Dest → Bool
  | .m | .md | .am | .amd => true
  | .noDest | .d | .a | .ad => false

/-- `alu(comp, A_old, D_old, M_old)` (R142), case by case; `quirk` is `DEC_QUIRK`. -/
def alu (quirk : Bool) (c : Comp) (a d m : Word) : Word :=
  match c with
  | .zero => 0x0000#16
  | .one => 0x0001#16
  | .minusOne => 0xFFFF#16
  | .passD => d
  | .passA => a
  | .notD => ~~~d
  | .notA => ~~~a
  | .negD => -d
  | .negA => -a
  | .incD => d + 1#16
  | .incA => a + 1#16
  | .decD => decrement quirk d
  | .decA => decrement quirk a
  | .addDA => d + a
  | .subDA => d - a
  | .subAD => a - d
  | .andDA => d &&& a
  | .orDA => d ||| a
  | .passM => m
  | .notM => ~~~m
  | .negM => -m
  | .incM => m + 1#16
  | .decM => m - 1#16
  | .addDM => d + m
  | .subDM => d - m
  | .subMD => m - d
  | .andDM => d &&& m
  | .orDM => d ||| m
  | .shlA => shl1 a
  | .shlD => shl1 d
  | .shlM => shl1 m
  | .shrA => shr1 a
  | .shrD => shr1 d
  | .shrM => shr1 m

/-- Whether the instruction names M in its comp or in its destination (R141). -/
def namesM (c : Comp) (dest : Dest) : Bool := readsM c || toM dest

/-- `M_old` (R141): the word at the address in A if the comp names M; otherwise no read is made, and the
ALU function does not look at the value given here (`alu_of_not_readsM`). -/
def operandM (c : Comp) (s : State) : Word := if readsM c then Memory.read s.ram s.a else 0#16

/-- The ALU output of a C-instruction started in state `s` (R142, R143). -/
def result (quirk : Bool) (c : Comp) (s : State) : Word := alu quirk c s.a s.d (operandM c s)

end Sys2Proof.Machine
end

