-- ==== Sys2Proof/Machine/Flags.lean ====
section
/-! DEFINITION. The two transient conditions and the jump decision.  The machine stores no flags (R32):
the jump tests the result of its own instruction. -/

namespace Sys2Proof.Machine

/-- `zr` (R32): the result is zero. -/
def zr (r : Word) : Bool := r == 0x0000#16

/-- `ng` (R32): bit 15 of the result is set, so its signed reading is negative. -/
def ng (r : Word) : Bool := r.getLsbD 15

/-- `cond(jump, result)` (R200, R202 to R209), in terms of `zr` and `ng`. -/
def jumpCond (jump : Jump) (r : Word) : Bool :=
  match jump with
  | .noJump => false
  | .jgt => !ng r && !zr r
  | .jeq => zr r
  | .jge => !ng r
  | .jlt => ng r
  | .jne => !zr r
  | .jle => ng r || zr r
  | .jmp => true

end Sys2Proof.Machine
end

