-- ==== Sys2Proof/Machine/Cycle.lean ====
section
/-! DEFINITION. The C-instruction cycle of 41_c_cycle.md, shared by the 34 comps: sample, check, compute,
store, decide pc. -/

namespace Sys2Proof.Machine

/-- Stage 3 (R144, R190): the named targets receive the result; M is addressed by `addr`, the old A. -/
def store (dest : Dest) (addr r : Word) (s : State) : State :=
  let s := if toM dest then s.setRam addr r else s
  let s := if toA dest then s.setA r else s
  if toD dest then s.setD r else s

/-- Stage 4 (R145, R201): a taken jump goes to A as it stands after the store, else pc advances. -/
def decidePc (jump : Jump) (r : Word) (s : State) : State :=
  if jumpCond jump r then s.setPc s.a else s.advance

/-- The instruction `C(dest, c, jump)` (R146), with `DEC_QUIRK` as an argument.  An access to a data address
that does not exist raises `MemFault` before anything is written (R141, R230; D4): the next state has
only the latch changed. -/
def execComputeWith (quirk : Bool) (c : Comp) (dest : Dest) (jump : Jump) (s : State) :
    Host.Outcome State Fault Refusal :=
  if namesM c dest && !dataAddrValid s.a then .next (s.raise (.memFault s.a))
  else .next (decidePc jump (result quirk c s) (store dest s.a (result quirk c s) s))

/-- The instruction `C(dest, c, jump)` on this machine, whose `DEC_QUIRK` is `Config.decQuirk`. -/
def execCompute (c : Comp) (dest : Dest) (jump : Jump) (s : State) : Host.Outcome State Fault Refusal :=
  execComputeWith Config.decQuirk c dest jump s

end Sys2Proof.Machine
end

