-- ==== Sys2Proof/Machine/Classic.lean ====
section
/-! DEFINITION. The 18 classic comps of 42_comp_classic.md: none reads M; each is the cycle of Cycle.lean over its
ALU function (`alu`, Operands.lean). -/

namespace Sys2Proof.Machine

/-- Comp `0` (R151). -/
def execZero (dest : Dest) (jump : Jump) (s : State) : Host.Outcome State Fault Refusal :=
  execCompute .zero dest jump s

/-- Comp `1` (R152). -/
def execOne (dest : Dest) (jump : Jump) (s : State) : Host.Outcome State Fault Refusal :=
  execCompute .one dest jump s

/-- Comp `-1` (R153). -/
def execMinusOne (dest : Dest) (jump : Jump) (s : State) : Host.Outcome State Fault Refusal :=
  execCompute .minusOne dest jump s

/-- Comp `D` (R154). -/
def execPassD (dest : Dest) (jump : Jump) (s : State) : Host.Outcome State Fault Refusal :=
  execCompute .passD dest jump s

/-- Comp `A` (R155). -/
def execPassA (dest : Dest) (jump : Jump) (s : State) : Host.Outcome State Fault Refusal :=
  execCompute .passA dest jump s

/-- Comp `!D` (R156). -/
def execNotD (dest : Dest) (jump : Jump) (s : State) : Host.Outcome State Fault Refusal :=
  execCompute .notD dest jump s

/-- Comp `!A` (R157). -/
def execNotA (dest : Dest) (jump : Jump) (s : State) : Host.Outcome State Fault Refusal :=
  execCompute .notA dest jump s

/-- Comp `-D` (R158). -/
def execNegD (dest : Dest) (jump : Jump) (s : State) : Host.Outcome State Fault Refusal :=
  execCompute .negD dest jump s

/-- Comp `-A` (R159). -/
def execNegA (dest : Dest) (jump : Jump) (s : State) : Host.Outcome State Fault Refusal :=
  execCompute .negA dest jump s

/-- Comp `D+1` (R160). -/
def execIncD (dest : Dest) (jump : Jump) (s : State) : Host.Outcome State Fault Refusal :=
  execCompute .incD dest jump s

/-- Comp `A+1` (R161). -/
def execIncA (dest : Dest) (jump : Jump) (s : State) : Host.Outcome State Fault Refusal :=
  execCompute .incA dest jump s

/-- Comp `D-1` (R162). -/
def execDecD (dest : Dest) (jump : Jump) (s : State) : Host.Outcome State Fault Refusal :=
  execCompute .decD dest jump s

/-- Comp `A-1` (R163). -/
def execDecA (dest : Dest) (jump : Jump) (s : State) : Host.Outcome State Fault Refusal :=
  execCompute .decA dest jump s

/-- Comp `D+A` (R164). -/
def execAddDA (dest : Dest) (jump : Jump) (s : State) : Host.Outcome State Fault Refusal :=
  execCompute .addDA dest jump s

/-- Comp `D-A` (R165). -/
def execSubDA (dest : Dest) (jump : Jump) (s : State) : Host.Outcome State Fault Refusal :=
  execCompute .subDA dest jump s

/-- Comp `A-D` (R166). -/
def execSubAD (dest : Dest) (jump : Jump) (s : State) : Host.Outcome State Fault Refusal :=
  execCompute .subAD dest jump s

/-- Comp `D&A` (R167). -/
def execAndDA (dest : Dest) (jump : Jump) (s : State) : Host.Outcome State Fault Refusal :=
  execCompute .andDA dest jump s

/-- Comp `D|A` (R168). -/
def execOrDA (dest : Dest) (jump : Jump) (s : State) : Host.Outcome State Fault Refusal :=
  execCompute .orDA dest jump s

end Sys2Proof.Machine
end

