-- ==== Sys2Proof/Machine/MemoryForms.lean ====
section
/-! DEFINITION. The 10 memory mirrors of 43_comp_memory.md: each reads M, the word at the address in A (R170). -/

namespace Sys2Proof.Machine

/-- Comp `M` (R171). -/
def execPassM (dest : Dest) (jump : Jump) (s : State) : Host.Outcome State Fault Refusal :=
  execCompute .passM dest jump s

/-- Comp `!M` (R172). -/
def execNotM (dest : Dest) (jump : Jump) (s : State) : Host.Outcome State Fault Refusal :=
  execCompute .notM dest jump s

/-- Comp `-M` (R173). -/
def execNegM (dest : Dest) (jump : Jump) (s : State) : Host.Outcome State Fault Refusal :=
  execCompute .negM dest jump s

/-- Comp `M+1` (R174). -/
def execIncM (dest : Dest) (jump : Jump) (s : State) : Host.Outcome State Fault Refusal :=
  execCompute .incM dest jump s

/-- Comp `M-1` (R175). -/
def execDecM (dest : Dest) (jump : Jump) (s : State) : Host.Outcome State Fault Refusal :=
  execCompute .decM dest jump s

/-- Comp `D+M` (R176). -/
def execAddDM (dest : Dest) (jump : Jump) (s : State) : Host.Outcome State Fault Refusal :=
  execCompute .addDM dest jump s

/-- Comp `D-M` (R177). -/
def execSubDM (dest : Dest) (jump : Jump) (s : State) : Host.Outcome State Fault Refusal :=
  execCompute .subDM dest jump s

/-- Comp `M-D` (R178). -/
def execSubMD (dest : Dest) (jump : Jump) (s : State) : Host.Outcome State Fault Refusal :=
  execCompute .subMD dest jump s

/-- Comp `D&M` (R179). -/
def execAndDM (dest : Dest) (jump : Jump) (s : State) : Host.Outcome State Fault Refusal :=
  execCompute .andDM dest jump s

/-- Comp `D|M` (R180). -/
def execOrDM (dest : Dest) (jump : Jump) (s : State) : Host.Outcome State Fault Refusal :=
  execCompute .orDM dest jump s

end Sys2Proof.Machine
end

