-- ==== Sys2Proof/Machine/Plain.lean ====
section
/-! DEFINITION. The three instructions of 40_a_label_none.md: load A, and the two no-operations. -/

namespace Sys2Proof.Machine

/-- `A(v)` (R130): `x[A] <- v; pc <- pc + 1`; no memory is accessed, so no value of `v` faults. -/
def execAtValue (v : Word) (s : State) : Host.Outcome State Fault Refusal :=
  .next (s.setA v).advance

/-- `NONE` (R132): `pc <- pc + 1`. -/
def execNoneOp (s : State) : Host.Outcome State Fault Refusal := .next s.advance

/-- `LABEL` (R131): `pc <- pc + 1`. -/
def execLabelOp (s : State) : Host.Outcome State Fault Refusal := .next s.advance

end Sys2Proof.Machine
end

