-- ==== Sys2Proof/Machine/Shift.lean ====
section
/-! DEFINITION. The 6 one-bit shifts of 44_comp_shift.md (R182). -/

namespace Sys2Proof.Machine

/-- Comp `A<<` (R183). -/
def execShlA (dest : Dest) (jump : Jump) (s : State) : Host.Outcome State Fault Refusal :=
  execCompute .shlA dest jump s

/-- Comp `D<<` (R184). -/
def execShlD (dest : Dest) (jump : Jump) (s : State) : Host.Outcome State Fault Refusal :=
  execCompute .shlD dest jump s

/-- Comp `M<<` (R185). -/
def execShlM (dest : Dest) (jump : Jump) (s : State) : Host.Outcome State Fault Refusal :=
  execCompute .shlM dest jump s

/-- Comp `A>>` (R186). -/
def execShrA (dest : Dest) (jump : Jump) (s : State) : Host.Outcome State Fault Refusal :=
  execCompute .shrA dest jump s

/-- Comp `D>>` (R187). -/
def execShrD (dest : Dest) (jump : Jump) (s : State) : Host.Outcome State Fault Refusal :=
  execCompute .shrD dest jump s

/-- Comp `M>>` (R188). -/
def execShrM (dest : Dest) (jump : Jump) (s : State) : Host.Outcome State Fault Refusal :=
  execCompute .shrM dest jump s

end Sys2Proof.Machine
end

