-- ==== Sys2Proof/Machine/Dispatch.lean ====
section
/-! DEFINITION. `Exec(I)` (60_exceptions.md R221): one arm per instruction, each a call of its meaning. -/

namespace Sys2Proof.Machine

def exec (i : Instr) (s : State) : Host.Outcome State Fault Refusal :=
  match i with
  | .atValue v => Sys2Proof.Machine.execAtValue v s
  | .zero dest jump => Sys2Proof.Machine.execZero dest jump s
  | .one dest jump => Sys2Proof.Machine.execOne dest jump s
  | .minusOne dest jump => Sys2Proof.Machine.execMinusOne dest jump s
  | .passD dest jump => Sys2Proof.Machine.execPassD dest jump s
  | .passA dest jump => Sys2Proof.Machine.execPassA dest jump s
  | .notD dest jump => Sys2Proof.Machine.execNotD dest jump s
  | .notA dest jump => Sys2Proof.Machine.execNotA dest jump s
  | .negD dest jump => Sys2Proof.Machine.execNegD dest jump s
  | .negA dest jump => Sys2Proof.Machine.execNegA dest jump s
  | .incD dest jump => Sys2Proof.Machine.execIncD dest jump s
  | .incA dest jump => Sys2Proof.Machine.execIncA dest jump s
  | .decD dest jump => Sys2Proof.Machine.execDecD dest jump s
  | .decA dest jump => Sys2Proof.Machine.execDecA dest jump s
  | .addDA dest jump => Sys2Proof.Machine.execAddDA dest jump s
  | .subDA dest jump => Sys2Proof.Machine.execSubDA dest jump s
  | .subAD dest jump => Sys2Proof.Machine.execSubAD dest jump s
  | .andDA dest jump => Sys2Proof.Machine.execAndDA dest jump s
  | .orDA dest jump => Sys2Proof.Machine.execOrDA dest jump s
  | .passM dest jump => Sys2Proof.Machine.execPassM dest jump s
  | .notM dest jump => Sys2Proof.Machine.execNotM dest jump s
  | .negM dest jump => Sys2Proof.Machine.execNegM dest jump s
  | .incM dest jump => Sys2Proof.Machine.execIncM dest jump s
  | .decM dest jump => Sys2Proof.Machine.execDecM dest jump s
  | .addDM dest jump => Sys2Proof.Machine.execAddDM dest jump s
  | .subDM dest jump => Sys2Proof.Machine.execSubDM dest jump s
  | .subMD dest jump => Sys2Proof.Machine.execSubMD dest jump s
  | .andDM dest jump => Sys2Proof.Machine.execAndDM dest jump s
  | .orDM dest jump => Sys2Proof.Machine.execOrDM dest jump s
  | .shlA dest jump => Sys2Proof.Machine.execShlA dest jump s
  | .shlD dest jump => Sys2Proof.Machine.execShlD dest jump s
  | .shlM dest jump => Sys2Proof.Machine.execShlM dest jump s
  | .shrA dest jump => Sys2Proof.Machine.execShrA dest jump s
  | .shrD dest jump => Sys2Proof.Machine.execShrD dest jump s
  | .shrM dest jump => Sys2Proof.Machine.execShrM dest jump s
  | .noneOp => Sys2Proof.Machine.execNoneOp s
  | .labelOp => Sys2Proof.Machine.execLabelOp s

end Sys2Proof.Machine
end

