-- ==== Sys2Proof/Machine/Sequencer.lean ====
section
/-! DEFINITION. The sequencer of 60_exceptions.md: one core step with the checks after it, the batch and
the single step. -/

namespace Sys2Proof.Machine

/-- How the host asks for execution (R220, R223, R225). -/
inductive StepMode
  | batched
  | single
  deriving DecidableEq, Repr

/-- `Exec` on a slot (R221): an illegal word raises `IllegalInstruction(W)` (R231), never a no-op. -/
def execSlot (slot : Slot) (s : State) : Host.Outcome State Fault Refusal :=
  match slot with
  | .instr i => exec i s
  | .illegal w => .next (s.raise (.illegalInstruction w))

/-- Check (1) of R222: a pc at or above the capacity is clamped to the last slot and stops the run
(R28, R232). -/
def checkBound (s : State) : State :=
  if slotValid s.pc then s
  else (s.setPc (BitVec.ofNat 16 (Config.imemSlots - 1))).stopPcOverflow

/-- Check (2) of R222: in a batched run a matching breakpoint stops it (R241); never in single step (R225). -/
def checkBreakpoints (mode : StepMode) (s : State) : State :=
  match mode with
  | .batched => if s.bp.any (Breakpoint.holds s) then s.stopBreakpoint else s
  | .single => s

/-- What follows `Exec`: a faulting instruction does not retire, so no check is made for it (R222, R234). -/
def afterExec (mode : StepMode) (s : State) : State :=
  if s.faulted then s else checkBreakpoints mode (checkBound s)

/-- The core step (R220): fetch, `Exec`, the checks.  There is none while a fault is latched, nor from a pc
that is no slot. -/
def coreStep (mode : StepMode) (s : State) : Host.Outcome State Fault Refusal :=
  if s.faulted then .fault (.halted s.fault)
  else if !slotValid s.pc then .fault (.pcOutOfRange s.pc)
  else match execSlot (fetch s) s with
    | .next t => .next (afterExec mode t)
    | .fault f => .fault f
    | .refused r => .refused r

/-- The steps of a batch (R223): until `stopped` is non-empty, a fault is latched, or `n` steps are made. -/
def batchSteps : Nat → State → State
  | 0, s => s
  | n + 1, s =>
    if s.stopped.any || s.faulted then s
    else match coreStep .batched s with
      | .next t => batchSteps n t
      | .fault _ => s
      | .refused _ => s

/-- A batch of at most `n` steps (R223): clear `stopped`, then step. -/
def runBatch (n : Nat) (s : State) : State := batchSteps n s.clearStopped

/-- A single step (R225): clear `stopped` (R36), then one step with the bound check and no breakpoint check.
Where the core has no step only `stopped` is cleared. -/
def singleStep (s : State) : State :=
  match coreStep .single s.clearStopped with
  | .next t => t
  | .fault _ => s.clearStopped
  | .refused _ => s.clearStopped

/-- The step of a run: one core step of a batch.  From a state in which the last batch has stopped it is the
first step of the next batch, which clears `stopped` (R36, R223; log 4); inside a batch `stopped` is
empty and nothing is cleared. -/
def runStep (s : State) : Host.Outcome State Fault Refusal := coreStep .batched s.clearStopped

/-- The state with a word placed, decoded, in the slot that pc names (the slot the next step fetches). -/
def placeWord (w : Word) (s : State) : State :=
  if slotValid s.pc then { s with imem := InstrMemory.write s.imem s.pc.u16 (decode w) } else s

/-- The end of a run (R226): a stop or a fault. -/
def State.runEnded (s : State) : Bool := s.stopped.any || s.faulted

end Sys2Proof.Machine
end

