-- ==== Sys2Proof/Machine/Step.lean ====
section
/-! DEFINITION. The machine's step, and the placement of one word where it fetches. -/

namespace Sys2Proof.Machine

/-- One step of a batched run (60_exceptions.md R220, R222, R223). -/
def step : State → Host.Outcome State Fault Refusal := runStep

/-- The state with the instruction word whose low `nbits` bits are those of `w` in the slot the next step
fetches; it stands for the program load of R264 (log 5). -/
def State.withFetchWord (s : State) (nbits w : Nat) : State := placeWord (tableWord nbits w) s

end Sys2Proof.Machine
end

