-- ==== Sys2Proof/Machine/Assembler.lean ====
section
/-! DEFINITION. The assembler of 30_encoding.md part 3 (R105 to R124): program text to instructions, and an
instruction's canonical text.  A line is its list of characters. -/

namespace Sys2Proof.Machine

/-- Why an assembly gives no program.  A single malformed line aborts the whole parse (R122). -/
inductive AsmError
  /-- More text lines than the instruction memory has slots: the caller's validation error (R105). -/
  | tooManyLines
  /-- `InvalidLine(line_number, text)` (R122), with the cleaned index (R106) and the line as written. -/
  | invalidLine (index : Nat) (text : Text)
  /-- An address operand missing from the table after the pre-pass: the fatal construction failure of R113.
  It cannot occur, since the pre-pass binds every operand. -/
  | unresolved (index : Nat) (text : Text)
  /-- Only under `ASM_DEST_LOOKUP_QUIRK`: a three-token line whose first token is in the table.  What it
  assembles to is not in the source (N23), so the parse ends under this name. -/
  | destLookupOpen (index : Nat) (text : Text)
  deriving DecidableEq, Repr

/-! ### Mnemonics -/

/-- The destination mnemonics (R116). -/
def Dest.text : Dest → Text
  | .noDest => []
  | .m => ['M']
  | .d => ['D']
  | .md => ['M', 'D']
  | .a => ['A']
  | .am => ['A', 'M']
  | .ad => ['A', 'D']
  | .amd => ['A', 'M', 'D']

/-- The jump mnemonics (R117). -/
def Jump.text : Jump → Text
  | .noJump => []
  | .jgt => ['J', 'G', 'T']
  | .jeq => ['J', 'E', 'Q']
  | .jge => ['J', 'G', 'E']
  | .jlt => ['J', 'L', 'T']
  | .jne => ['J', 'N', 'E']
  | .jle => ['J', 'L', 'E']
  | .jmp => ['J', 'M', 'P']

/-- The comp mnemonics (R118); the spelling of the shifts is the spec's (D18). -/
def Comp.text : Comp → Text
  | .zero => ['0']
  | .one => ['1']
  | .minusOne => ['-', '1']
  | .passD => ['D']
  | .passA => ['A']
  | .notD => ['!', 'D']
  | .notA => ['!', 'A']
  | .negD => ['-', 'D']
  | .negA => ['-', 'A']
  | .incD => ['D', '+', '1']
  | .incA => ['A', '+', '1']
  | .decD => ['D', '-', '1']
  | .decA => ['A', '-', '1']
  | .addDA => ['D', '+', 'A']
  | .subDA => ['D', '-', 'A']
  | .subAD => ['A', '-', 'D']
  | .andDA => ['D', '&', 'A']
  | .orDA => ['D', '|', 'A']
  | .passM => ['M']
  | .notM => ['!', 'M']
  | .negM => ['-', 'M']
  | .incM => ['M', '+', '1']
  | .decM => ['M', '-', '1']
  | .addDM => ['D', '+', 'M']
  | .subDM => ['D', '-', 'M']
  | .subMD => ['M', '-', 'D']
  | .andDM => ['D', '&', 'M']
  | .orDM => ['D', '|', 'M']
  | .shlA => ['A', '<', '<']
  | .shlD => ['D', '<', '<']
  | .shlM => ['M', '<', '<']
  | .shrA => ['A', '>', '>']
  | .shrD => ['D', '>', '>']
  | .shrM => ['M', '>', '>']

/-- The destination a text names, if it is one of the mnemonics or empty (R116). -/
def parseDest (t : Text) : Option Dest :=
  [Dest.noDest, .m, .d, .md, .a, .am, .ad, .amd].find? fun x => Dest.text x == t

/-- The jump policy a text names, if it is one of the mnemonics or empty (R117). -/
def parseJump (t : Text) : Option Jump :=
  [Jump.noJump, .jgt, .jeq, .jge, .jlt, .jne, .jle, .jmp].find? fun x => Jump.text x == t

/-- The comp a text names, if it is one of the 34 mnemonics (R118). -/
def parseComp (t : Text) : Option Comp := Comp.all.find? fun c => Comp.text c == t

/-! ### Decimal numbers -/

/-- The value of a decimal digit. -/
def digitValue (c : Char) : Option Nat :=
  if 48 ≤ c.toNat ∧ c.toNat ≤ 57 then some (c.toNat - 48) else none

/-- The value of a run of decimal digits read after a prefix of value `acc`. -/
def digitsValue : Nat → Text → Option Nat
  | acc, [] => some acc
  | acc, c :: rest =>
    match digitValue c with
    | some x => digitsValue (acc * 10 + x) rest
    | none => none

/-- An unsigned 16-bit integer literal (R109): one or more decimal digits, value at most 65535 (log 23). -/
def parseLiteral (t : Text) : Option Word :=
  match t with
  | [] => none
  | _ :: _ =>
    match digitsValue 0 t with
    | some n => if n ≤ 65535 then some (BitVec.ofNat 16 n) else none
    | none => none

/-- The decimal digits of `n`, no leading zeros, in front of `acc`; `fuel` bounds their number. -/
def decimalDigits : Nat → Nat → Text → Text
  | 0, _, acc => acc
  | fuel + 1, n, acc =>
    let acc := Char.ofNat (48 + n % 10) :: acc
    if n / 10 = 0 then acc else decimalDigits fuel (n / 10) acc

/-- The decimal text of a 16-bit unsigned number: at most five digits. -/
def decimalText (w : Word) : Text := decimalDigits 5 w.u16 []

/-! ### Phase 1: stripping (R106) -/

/-- The text before the first comment marker `//`. -/
def beforeComment : Text → Text
  | [] => []
  | c :: rest =>
    if c = '/' ∧ rest.head? = some '/' then [] else c :: beforeComment rest

/-- A line with its comment cut off and its spaces removed. -/
def strip (line : Text) : Text := (beforeComment line).filter fun c => c != ' '

/-- A line that is left after phase 1: its stripped text and the text as written. -/
structure CleanLine where
  text : Text
  original : Text
  deriving DecidableEq, Repr

/-- Phase 1: every line stripped, the empty ones dropped; the position in the list is the cleaned index. -/
def clean (lines : List Text) : List CleanLine :=
  (lines.map fun l => CleanLine.mk (strip l) l).filter fun l => l.text != []

/-- The kinds of a stripped line (R107). -/
inductive LineKind
  | label (name : Text)
  | address (operand : Text)
  | compute
  deriving DecidableEq, Repr

/-- The kind of a stripped line (R107): `(name)`, `@operand`, or a compute line. -/
def lineKind (t : Text) : LineKind :=
  match t with
  | [] => .compute
  | c :: rest =>
    if c = '@' then .address rest
    else if c = '(' ∧ rest.getLast? = some ')' then .label rest.dropLast
    else .compute

/-- A white-space character other than the space: such lines are refused (R106, U15; log 22). -/
def hasOtherSpace (t : Text) : Bool := t.any fun c => c.isWhitespace && c != ' '

/-! ### Phase 2: symbols (R108 to R111) -/

/-- `insert_if_absent(name)` (R109): a literal is bound to its value; any other new name to the cursor,
which then advances; a bound name is left alone. -/
def SymbolTable.insertIfAbsent (t : SymbolTable) (name : Text) : SymbolTable :=
  if (t.lookup name).isSome then t
  else match parseLiteral name with
    | some v => t.bind name v
    | none => { t.bind name t.cursor with cursor := t.cursor + 1#16 }

/-- Label binding (R110): the label line at cleaned index `k` with `seen` label lines below it binds its
name to `k - seen`.  An empty name, a duplicate or a seeded name is refused (R110, R120; D19, D21).
DESIGN CHOICE: the spec gives no grammar of names (N22), so any other text without white space is a
name, a numeric-looking one too, which then takes precedence over the literal (log 31). -/
def bindLabels : List CleanLine → (k seen : Nat) → SymbolTable → Except AsmError SymbolTable
  | [], _, _, t => .ok t
  | l :: rest, k, seen, t =>
    match lineKind l.text with
    | .label name =>
      if name == [] || hasOtherSpace l.text || (t.lookup name).isSome then .error (.invalidLine k l.original)
      else bindLabels rest (k + 1) (seen + 1) (t.bind name (BitVec.ofNat 16 (k - seen)))
    | .address _ => bindLabels rest (k + 1) seen t
    | .compute => bindLabels rest (k + 1) seen t

/-- Variable binding (R111), after all labels are bound (D19): the operand of each address line, in order.
An empty operand is refused (R120). -/
def bindVariables : List CleanLine → (k : Nat) → SymbolTable → Except AsmError SymbolTable
  | [], _, t => .ok t
  | l :: rest, k, t =>
    match lineKind l.text with
    | .label _ => bindVariables rest (k + 1) t
    | .address operand =>
      if operand == [] || hasOtherSpace l.text then .error (.invalidLine k l.original)
      else bindVariables rest (k + 1) (t.insertIfAbsent operand)
    | .compute => bindVariables rest (k + 1) t

/-! ### Phase 3: instructions (R112 to R120) -/

/-- Whether a character separates the tokens of a compute line (R115). -/
def isDelimiter (c : Char) : Bool := c == ' ' || c == ',' || c == '=' || c == ';'

/-- The tokens of a compute line, each with the delimiter that ends it (none at the line's end). -/
def splitTokens : Text → List (Text × Option Char)
  | [] => [([], none)]
  | c :: rest =>
    if isDelimiter c then ([], some c) :: splitTokens rest
    else match splitTokens rest with
      | (tok, sep) :: more => (c :: tok, sep) :: more
      | [] => [([c], none)]

/-- What the three texts of a compute line name (R115 to R118, R120): an empty destination or jump text is
the absent part; any unknown text is refused. -/
def computeOf (dest comp jump : Text) : Option Instr :=
  match parseDest dest, parseComp comp, parseJump jump with
  | some x, some c, some j => some (.ofComp c x j)
  | _, _, _ => none

/-- A compute line (R115, R119), `quirk` being `ASM_DEST_LOOKUP_QUIRK`.  The shapes are those of the grammar
`[dest=]comp[;jump]`; a written part must not be empty (log 24). -/
def parseCompute (quirk : Bool) (t : SymbolTable) (k : Nat) (l : CleanLine) : Except AsmError Instr :=
  let invalid := AsmError.invalidLine k l.original
  let answer (x : Option Instr) : Except AsmError Instr :=
    match x with
    | some i => .ok i
    | none => .error invalid
  match splitTokens l.text with
  | [(comp, none)] => answer (computeOf [] comp [])
  | [(x, some sep), (y, none)] =>
    if x == [] || y == [] then .error invalid
    else if sep = ';' then answer (computeOf [] x y)
    else if sep = '=' then answer (computeOf x y [])
    else .error invalid
  | [(x, some sep), (y, some sep'), (z, none)] =>
    if x == [] || y == [] || z == [] then .error invalid
    else if quirk then
      if (t.lookup x).isSome then .error (.destLookupOpen k l.original) else .error invalid
    else if sep = '=' ∧ sep' = ';' then answer (computeOf x y z)
    else .error invalid
  | _ => .error invalid

/-- An address line (R113): the operand's bound address as the constant.  An address of 32768 or more has no
A-instruction word and is refused (R114; D17, log 25). -/
def parseAddress (t : SymbolTable) (k : Nat) (l : CleanLine) (operand : Text) : Except AsmError Instr :=
  match t.lookup operand with
  | none => .error (.unresolved k l.original)
  | some v => if v.getLsbD 15 then .error (.invalidLine k l.original) else .ok (.atValue v)

/-- Phase 3: each address line and each compute line gives one instruction, in order; label lines give
none (R112, R123). -/
def emit (quirk : Bool) (t : SymbolTable) : List CleanLine → (k : Nat) → Except AsmError (List Instr)
  | [], _ => .ok []
  | l :: rest, k =>
    match lineKind l.text with
    | .label _ => emit quirk t rest (k + 1)
    | .address operand =>
      match parseAddress t k l operand, emit quirk t rest (k + 1) with
      | .ok i, .ok more => .ok (i :: more)
      | .error e, _ => .error e
      | _, .error e => .error e
    | .compute =>
      match parseCompute quirk t k l, emit quirk t rest (k + 1) with
      | .ok i, .ok more => .ok (i :: more)
      | .error e, _ => .error e
      | _, .error e => .error e

/-- `parse(lines, table)` (R105) from a fresh table: the instructions of the program in slot order (the
filler of R121 is added when they are installed) and the table the assembly leaves. -/
def assembleWith (quirk : Bool) (lines : List Text) : Except AsmError (List Instr × SymbolTable) :=
  if Config.imemSlots < lines.length then .error .tooManyLines
  else
    match bindLabels (clean lines) 0 0 .fresh with
    | .error e => .error e
    | .ok labels =>
      match bindVariables (clean lines) 0 labels with
      | .error e => .error e
      | .ok table =>
        match emit quirk table (clean lines) 0 with
        | .error e => .error e
        | .ok prog => .ok (prog, table)

/-- The assembler of this spec: the option of R119 at its default. -/
def assemble (lines : List Text) : Except AsmError (List Instr × SymbolTable) :=
  assembleWith Config.asmDestLookupQuirk lines

/-- The canonical text of an instruction (R124); `NONE` and `LABEL` have none. -/
def instrText (i : Instr) : Option Text :=
  match i.typed with
  | .A v => some ('@' :: decimalText v)
  | .C dest c jump =>
    some ((if dest = .noDest then [] else Dest.text dest ++ ['=']) ++ Comp.text c ++
      (if jump = .noJump then [] else ';' :: Jump.text jump))
  | .LABEL => none
  | .NONE => none

end Sys2Proof.Machine
end

