-- ==== Sys2Proof/Machine/Controller.lean ====
section
/-! DEFINITION. The host's operations (60_exceptions.md R250, 70_reset_and_hazards.md), each performed
between core steps, and a session as a list of them. -/

namespace Sys2Proof.Machine

/-! ### Program load -/

/-- The installation of a program (R264): IMEM is replaced as a whole, filler past the program (R121), the
symbol table is replaced, `fault` and `stopped` are cleared; A, D, pc, RAM and BP stay (D15). -/
def installProgram (prog : List Instr) (table : SymbolTable) (s : State) : State :=
  { s with imem := layOut 0 prog, symbols := table, fault := .noFault, stopped := .empty }

/-- A load of typed instructions; a program longer than the memory is refused and nothing changes (log 18). -/
def loadInstrs (prog : List Instr) (s : State) : Option State :=
  if programFits prog then some (installProgram prog .fresh s) else none

/-- The instructions of a list of words, if none of them is illegal. -/
def decodeAll : List Word → Option (List Instr)
  | [] => some []
  | w :: rest =>
    match decode w, decodeAll rest with
    | .instr i, some more => some (i :: more)
    | _, _ => none

/-- A load of an image of words (R97): an image with an illegal word is refused as a whole and the previous
program stays. -/
def loadWords (image : List Word) (s : State) : Option State :=
  match decodeAll image with
  | some prog => loadInstrs prog s
  | none => none

/-- A load of program text (R264): on success the assembled program and its table are installed; on an error
nothing of the machine changes (R122). -/
def loadText (lines : List Text) (s : State) : Except AsmError State :=
  match assemble lines with
  | .ok (prog, table) => .ok (installProgram prog table s)
  | .error e => .error e

/-! ### Resets and the keyboard -/

/-- "reset RAM" (R262): all words to `0x0000`, nothing else. -/
def resetRam (s : State) : State := { s with ram := [] }

/-- "reset run" (R263): pc to 0, `fault` and `stopped` cleared, nothing else. -/
def resetRun (s : State) : State := { s with pc := 0#16, fault := .noFault, stopped := .empty }

/-- The keyboard write (R62): the host puts any word into the keyboard register. -/
def writeKeyboard (code : Word) (s : State) : State := s.setRam (BitVec.ofNat 16 Config.kbdAddr) code

/-! ### Reads -/

/-- A debug read of a RAM word (R250): `none` where there is no word. -/
def debugRam (s : State) (addr : Word) : Option Word := memRead s addr

/-- The data address of the screen word with the pixel at row `r`, column `c` (R61). -/
def pixelAddr (r : Fin 256) (c : Fin 512) : Word := BitVec.ofNat 16 (Config.screenBase + 32 * r + c / 16)

/-- The bit of the pixel at row `r`, column `c` (R61): bit 0 of a word is the leftmost of its 16. -/
def pixelBit (s : State) (r : Fin 256) (c : Fin 512) : Bool :=
  (Memory.read s.ram (pixelAddr r c)).getLsbD (c % 16)

/-- Whether the pixel at row `r`, column `c` is dark; the polarity is open (D22), so a free value. -/
def pixelDark (s : State) (r : Fin 256) (c : Fin 512) : Bool := pixelBit s r c == Config.pixelOnIsDark

/-! ### Sessions -/

/-- The host's operations that change the state (R250); the host makes no others (R251; D24). -/
inductive HostOp
  | powerOn
  | loadInstrs (prog : List Instr)
  | loadWords (image : List Word)
  | loadText (lines : List Text)
  | resetRam
  | resetRun
  | batch (n : Nat)
  | singleStep
  | writeKeyboard (code : Word)
  | insertBreakpoint (b : Breakpoint)
  | removeBreakpoint (b : Breakpoint)
  deriving DecidableEq, Repr

/-- One host operation; a refused load changes nothing. -/
def hostStep (op : HostOp) (s : State) : State :=
  match op with
  | .powerOn => .reset
  | .loadInstrs prog => (loadInstrs prog s).getD s
  | .loadWords image => (loadWords image s).getD s
  | .loadText lines =>
    match loadText lines s with
    | .ok t => t
    | .error _ => s
  | .resetRam => resetRam s
  | .resetRun => resetRun s
  | .batch n => runBatch n s
  | .singleStep => singleStep s
  | .writeKeyboard code => writeKeyboard code s
  | .insertBreakpoint b => { s with bp := insertBreakpoint b s.bp }
  | .removeBreakpoint b => { s with bp := removeBreakpoint b s.bp }

/-- A session: host operations one after the other.  The keyboard may be written between any two
instructions (R62), since a batch may be cut into batches of any size. -/
def session (ops : List HostOp) (s : State) : State := ops.foldl (fun t op => hostStep op t) s

end Sys2Proof.Machine
end

