-- ==== Sys2Proof/Safety.lean ====
section
/-! DEFINITION. What counts as a safe run, in the terms the statements use. -/

namespace Sys2Proof.Machine

/-- The invariant of the machine: both memories, the breakpoint set and the symbol table in their form, and
pc a slot (R25: whenever the core is about to step, `pc ≤ 32766`). -/
abbrev State.Inv (s : State) : Prop :=
  Memory.wf s.ram = true ∧ InstrMemory.wf s.imem = true ∧ breakpointsWf s.bp = true ∧
    SymbolTable.wf s.symbols = true ∧ slotValid s.pc = true

/-- A state no fault is latched in: the run is safe so far (R35). -/
abbrev State.Safe (s : State) : Prop := s.fault = .noFault

/-- The run from `s` is safe for `n` steps: the host's `Core.run` answers a state with no fault latched.  A
stop does not end it (R224: a stop is not a fault). -/
abbrev SafeFor (n : Nat) (s : State) : Prop :=
  ∃ t, Host.Core.run Sys2Proof.core n s = .next t ∧ State.Safe t

/-- Every slot holds an instruction, as after any load by a loader that obeys R97. -/
abbrev NoIllegalSlot (s : State) : Prop := ∀ c ∈ s.imem, ∀ w, c.2 ≠ Slot.illegal w

end Sys2Proof.Machine
end

