-- ==== Sys2Proof/Certificates/Slice0/Obligations.lean ====
section
/-! DEFINITION. The statements for the provers, in the terms of spec/'s numbered rules.  The predicates
before them say in plain terms what an instruction, a check or a predicate of the spec does. -/

namespace Sys2Proof.Machine

/-! ### What the statements say with -/

/-- The relational test of a jump against the signed result (R200, R202 to R209). -/
def JumpTest : Jump → Int → Prop
  | .noJump, _ => False
  | .jgt, x => x > 0
  | .jeq, x => x = 0
  | .jge, x => x ≥ 0
  | .jlt, x => x < 0
  | .jne, x => x ≠ 0
  | .jle, x => x ≤ 0
  | .jmp, _ => True

/-- The data address in A exists if the instruction names M (R141). -/
def Reaches (reads : Bool) (dest : Dest) (s : State) : Prop :=
  reads = true ∨ toM dest = true → s.a.u16 ≤ 24576

/-- From `s` to `t`: the effect of a C-instruction with result `r` (R143 to R145), and its frame.  The named
targets hold `r`, M being the word at the old A; every other register and every other word is as
before; pc is the new A if the signed result passes the jump's test, else the old pc plus 1 modulo
65536; the instruction memory, the breakpoint set, both latches and the symbol table are as before. -/
def CycleEffect (dest : Dest) (jump : Jump) (r : Word) (s t : State) : Prop :=
  (t.a = if toA dest then r else s.a) ∧ (t.d = if toD dest then r else s.d) ∧
  (toM dest = true → Memory.read t.ram s.a = r) ∧
  (∀ b : Word, toM dest = false ∨ b ≠ s.a → Memory.read t.ram b = Memory.read s.ram b) ∧
  (JumpTest jump r.s16 → t.pc = t.a) ∧ (¬ JumpTest jump r.s16 → t.pc = Word.w16 (s.pc.u16 + 1)) ∧
  t.imem = s.imem ∧ t.bp = s.bp ∧ t.fault = s.fault ∧ t.stopped = s.stopped ∧ t.symbols = s.symbols

/-- The instruction `f dest jump` completes with result `r s` for every destination, every jump and every
state in which the data address it names, if it names one, exists. -/
def Gives (reads : Bool) (f : Dest → Jump → Instr) (r : State → Word) : Prop :=
  ∀ dest jump s, Reaches reads dest s → ∃ t, exec (f dest jump) s = .next t ∧ CycleEffect dest jump (r s) s t

/-- The word of `f dest jump` is `m | (ddd << 3) | jjj`. -/
def WordForm (f : Dest → Jump → Instr) (m : Word) : Prop :=
  ∀ dest jump, encode (f dest jump) =
    some (m ||| (dest.bits.zeroExtend 16 <<< 3) ||| jump.bits.zeroExtend 16)

/-- `M_old`: the word at the address in A. -/
def mOld (s : State) : Word := Memory.read s.ram s.a

/-- A breakpoint matches a state (R240). -/
def Matches (s : State) : Breakpoint → Prop
  | .A v => s.a = v
  | .D v => s.d = v
  | .PC n => s.pc = n
  | .RAM address v => address.u16 ≤ 24576 ∧ Memory.read s.ram address = v

/-- `t` is `s` but for pc and `stopped`. -/
def SameButPcStopped (s t : State) : Prop :=
  t.a = s.a ∧ t.d = s.d ∧ t.ram = s.ram ∧ t.imem = s.imem ∧ t.bp = s.bp ∧ t.fault = s.fault ∧
    t.symbols = s.symbols

/-- From `t`, the state after `Exec`, to `u`: the checks of R222 in a batched run, bound first. -/
def ChecksMade (t u : State) : Prop :=
  SameButPcStopped t u ∧
  (t.pc.u16 ≤ 32766 → u.pc = t.pc ∧ u.stopped.pcOverflow = false) ∧
  (32767 ≤ t.pc.u16 → u.pc = 32766#16 ∧ u.stopped.pcOverflow = true) ∧
  (u.stopped.breakpoint = true ↔ ∃ b ∈ u.bp, Matches u b)

/-- The destination's effect (R191 to R198) in a state where the comp's own read, if any, succeeds:
`a`, `d` and `m` say whether A, D and M are targets; each target receives the result, nothing else
changes but pc; where M is a target and its address does not exist, only the fault latch changes. -/
def StoresTo (c : Comp) (dest : Dest) (a d m : Bool) : Prop :=
  ∀ jump s, Reaches (readsM c) .noDest s →
    (m = true → 24576 < s.a.u16 → exec (.ofComp c dest jump) s = .next { s with fault := .memFault s.a }) ∧
    ((m = true → s.a.u16 ≤ 24576) → ∃ t, exec (.ofComp c dest jump) s = .next t ∧
      (t.a = if a then result Config.decQuirk c s else s.a) ∧
      (t.d = if d then result Config.decQuirk c s else s.d) ∧
      (m = true → Memory.read t.ram s.a = result Config.decQuirk c s) ∧
      (∀ b : Word, m = false ∨ b ≠ s.a → Memory.read t.ram b = Memory.read s.ram b) ∧
      t.imem = s.imem ∧ t.bp = s.bp ∧ t.fault = s.fault ∧ t.stopped = s.stopped ∧ t.symbols = s.symbols)

/-- The jump `jump` has the field value `jjj` and is taken exactly for the results in `taken`, whatever the
comp and the destination, which is stored as ever; taken, it goes to A as the instruction leaves it. -/
def TakenFor (jump : Jump) (jjj : BitVec 3) (taken : Nat → Prop) : Prop :=
  jump.bits = jjj ∧ ∀ c dest s, Reaches (readsM c) dest s →
    ∃ t, exec (.ofComp c dest jump) s = .next t ∧
      (t.a = if toA dest then result Config.decQuirk c s else s.a) ∧
      (t.d = if toD dest then result Config.decQuirk c s else s.d) ∧
      (toM dest = true → Memory.read t.ram s.a = result Config.decQuirk c s) ∧
      (taken (result Config.decQuirk c s).u16 → t.pc = t.a) ∧
      (¬ taken (result Config.decQuirk c s).u16 → t.pc = Word.w16 (s.pc.u16 + 1))

/-- The slots of `t` hold the program, then `NONE` (R121). -/
def HoldsProgram (t : State) (prog : List Instr) : Prop :=
  ∀ i : Nat, InstrMemory.read t.imem i = .instr (prog[i]?.getD .noneOp)

/-- `t` is `s` but for the instruction memory, the symbol table and the two latches, which are cleared: what
a program load leaves alone (R264). -/
def LoadedOver (s t : State) : Prop :=
  t.a = s.a ∧ t.d = s.d ∧ t.pc = s.pc ∧ t.ram = s.ram ∧ t.bp = s.bp ∧ t.fault = .noFault ∧
    t.stopped = .empty

end Sys2Proof.Machine

open Sys2Proof Sys2Proof.Machine

/-! ### Encoding -/

/-- Words written out from the tables of R85 to R94, one or more of each family and of the illegal words
of R95, decode as the spec says. The encoding is the spec's decision D1, D2, D3 (log 10, 11). -/
def Obligations.WrittenWordsDecode : Prop :=
  decode 0b0110000000000000#16 = .instr (.atValue 24576#16) ∧
  decode 0b1110101010000111#16 = .instr (.zero .noDest .jmp) ∧
  decode 0b1110000010010000#16 = .instr (.addDA .d .noJump) ∧
  decode 0b1111110010101001#16 = .instr (.decM .am .jgt) ∧
  decode 0b1010010000111111#16 = .instr (.shrD .amd .jmp) ∧
  decode 0b1011100000001000#16 = .instr (.shlM .m .noJump) ∧
  decode 0b1000000000000000#16 = .instr .noneOp ∧
  decode 0b1000000000000001#16 = .instr .labelOp ∧
  decode 0b1000000000000010#16 = .illegal 0x8002#16 ∧
  decode 0b1100000000000000#16 = .illegal 0xC000#16 ∧
  decode 0b1111111111000000#16 = .illegal 0xFFC0#16 ∧
  decode 0b1011110000000000#16 = .illegal 0xBC00#16

/-- `decode(encode(I)) = I` for every instruction but `A(v)` with `v[15] = 1`, for which `encode` is
undefined (R96). The encoding is the spec's decision D1, D2, D17 (log 10, 12). -/
def Obligations.DecodeOfEncode : Prop :=
  ∀ i : Instr, (∃ w, encode i = some w ∧ decode w = .instr i) ∨
    (encode i = none ∧ ∃ v : Word, i = .atValue v ∧ 32768 ≤ v.u16)

/-- `encode(decode(W)) = W` for every legal `W`, so distinct legal words decode to distinct instructions
(R96). The encoding is the spec's decision D1, D2 (log 10). -/
def Obligations.EncodeOfDecode : Prop :=
  (∀ w i, decode w = .instr i → encode i = some w) ∧
  (∀ w w' i, decode w = .instr i → decode w' = .instr i → w = w')

/-- The illegal words are exactly those R95 lists, by class and selector, and each decodes to `Illegal`
of itself. The set is the spec's decision D3 (log 11). -/
def Obligations.IllegalWordsAreThoseListed : Prop :=
  (∀ w w' : Word, decode w = .illegal w' → w' = w) ∧
  ∀ w : Word, decode w = .illegal w ↔
    ((w.extractLsb' 13 3 = 0b100#3 ∧ w ≠ 0x8000#16 ∧ w ≠ 0x8001#16) ∨
     w.extractLsb' 13 3 = 0b110#3 ∨
     (w.extractLsb' 13 3 = 0b111#3 ∧ w.extractLsb' 6 7 ∉
        [0b0101010#7, 0b0111111#7, 0b0111010#7, 0b0001100#7, 0b0110000#7, 0b0001101#7, 0b0110001#7,
         0b0001111#7, 0b0110011#7, 0b0011111#7, 0b0110111#7, 0b0001110#7, 0b0110010#7, 0b0000010#7] ++
        [0b0010011#7, 0b0000111#7, 0b0000000#7, 0b0010101#7, 0b1110000#7, 0b1110001#7, 0b1110011#7,
         0b1110111#7, 0b1110010#7, 0b1000010#7, 0b1010011#7, 0b1000111#7, 0b1000000#7, 0b1010101#7]) ∨
     (w.extractLsb' 13 3 = 0b101#3 ∧ w.extractLsb' 6 7 ∉
        [0b0100000#7, 0b0110000#7, 0b1100000#7, 0b0000000#7, 0b0010000#7, 0b1000000#7]))

/-- The A-format (R86): a word with bit 15 clear decodes to `A(v)` with `v` its 15 value bits
zero-extended, so both readings of `v` are the word's number and at most 32767. The encoding is the
spec's decision D1 (log 10). -/
def Obligations.AddressWordZeroExtends : Prop :=
  ∀ w : Word, w.getLsbD 15 = false → ∃ v : Word, decode w = .instr (.atValue v) ∧
    v.u16 = w.u16 ∧ v.u16 ≤ 32767 ∧ v.s16 = v.u16

/-- The field bits (R91, R92): d1, d2, d3 are the targets A, D, M; j1, j2, j3 jump on a negative, zero,
positive result, and are OR-ed. The field bits are the spec's decision D1 (log 10). -/
def Obligations.FieldBitsMeanTargetsAndSigns : Prop :=
  (∀ x : BitVec 3, toA (.ofBits x) = x.getLsbD 2 ∧ toD (.ofBits x) = x.getLsbD 1 ∧ toM (.ofBits x) = x.getLsbD 0) ∧
  (∀ (x : BitVec 3) (r : Word), jumpCond (.ofBits x) r = true ↔
    (x.getLsbD 2 = true ∧ r.s16 < 0) ∨ (x.getLsbD 1 = true ∧ r.s16 = 0) ∨ (x.getLsbD 0 = true ∧ 0 < r.s16))

/-! ### Results of the instructions, with their frames -/

/-- The load of A (R130): A becomes `v` for every word `v`, pc advances, nothing else changes, whatever
the state; its word is `v` for `v[15] = 0` only. The word form is the spec's decision D1, D17 (log 10,
12). -/
def Obligations.AddressLoadSetsA : Prop :=
  ∀ (v : Word) (s : State),
    exec (.atValue v) s = .next { s with a := v, pc := Word.w16 (s.pc.u16 + 1) } ∧
    encode (.atValue v) = if v.u16 < 32768 then some v else none

/-- The two no-operations (R131, R132): pc advances and nothing else changes; their words are `0x8001`
and `0x8000`. The words are the spec's decision D2 (log 10). -/
def Obligations.NoOperationsOnlyAdvance : Prop :=
  (∀ s : State, exec .labelOp s = .next { s with pc := Word.w16 (s.pc.u16 + 1) }) ∧
  (∀ s : State, exec .noneOp s = .next { s with pc := Word.w16 (s.pc.u16 + 1) }) ∧
  encode .labelOp = some 0x8001#16 ∧ encode .noneOp = some 0x8000#16

/-- Comps `0`, `1`, `-1`, `D`, `A` (R151 to R155): the constant, or the register's old value. The words
are the spec's decision D1 (log 10). -/
def Obligations.ConstantAndPassCompsResult : Prop :=
  WordForm .zero 0xEA80#16 ∧ Gives false .zero (fun _ => 0x0000#16) ∧
  WordForm .one 0xEFC0#16 ∧ Gives false .one (fun _ => 0x0001#16) ∧
  WordForm .minusOne 0xEE80#16 ∧ Gives false .minusOne (fun _ => 0xFFFF#16) ∧
  WordForm .passD 0xE300#16 ∧ Gives false .passD (fun s => s.d) ∧
  WordForm .passA 0xEC00#16 ∧ Gives false .passA (fun s => s.a)

/-- Comps `!D`, `!A`, `-D`, `-A` (R156 to R159): complement and negation, modulo 65536. The words are
the spec's decision D1 (log 10). -/
def Obligations.RegisterComplementNegateResult : Prop :=
  WordForm .notD 0xE340#16 ∧ Gives false .notD (fun s => Word.w16 (65535 - s.d.u16)) ∧
  WordForm .notA 0xEC40#16 ∧ Gives false .notA (fun s => Word.w16 (65535 - s.a.u16)) ∧
  WordForm .negD 0xE3C0#16 ∧ Gives false .negD (fun s => Word.w16 (0 - s.d.u16)) ∧
  WordForm .negA 0xECC0#16 ∧ Gives false .negA (fun s => Word.w16 (0 - s.a.u16))

/-- Comps `D+1` and `A+1` (R160, R161): increment modulo 65536. The words are the spec's decision D1
(log 10). -/
def Obligations.RegisterIncrementResult : Prop :=
  WordForm .incD 0xE7C0#16 ∧ Gives false .incD (fun s => Word.w16 (s.d.u16 + 1)) ∧
  WordForm .incA 0xEDC0#16 ∧ Gives false .incA (fun s => Word.w16 (s.a.u16 + 1))

/-- Comps `D-1` and `A-1` (R162, R163) on this machine. It assumes `DEC_QUIRK = true`, the spec's
decided default (92_eei_decisions.md D6, log 6): both add one. The words are the spec's decision D1 (log
10). -/
def Obligations.RegisterDecrementAddsOne : Prop :=
  WordForm .decD 0xE380#16 ∧ Gives false .decD (fun s => Word.w16 (s.d.u16 + 1)) ∧
  WordForm .decA 0xEC80#16 ∧ Gives false .decA (fun s => Word.w16 (s.a.u16 + 1))

/-- Comps `D-1` and `A-1` for either value of `DEC_QUIRK` (R162, R163; D6): with it the operand plus 1,
without it the operand minus 1, modulo 65536; the other 32 comps do not depend on it. -/
def Obligations.DecrementForBothQuirks : Prop :=
  (∀ quirk dest jump s, Reaches false dest s → ∃ t, execComputeWith quirk .decD dest jump s = .next t ∧
    CycleEffect dest jump (if quirk then Word.w16 (s.d.u16 + 1) else Word.w16 (s.d.u16 - 1)) s t) ∧
  (∀ quirk dest jump s, Reaches false dest s → ∃ t, execComputeWith quirk .decA dest jump s = .next t ∧
    CycleEffect dest jump (if quirk then Word.w16 (s.a.u16 + 1) else Word.w16 (s.a.u16 - 1)) s t) ∧
  (∀ c dest jump s, c ≠ .decD → c ≠ .decA →
    execComputeWith true c dest jump s = execComputeWith false c dest jump s)

/-- Comps `D+A`, `D-A`, `A-D` (R164 to R166): sum and differences modulo 65536. The words are the spec's
decision D1 (log 10). -/
def Obligations.RegisterSumDifferenceResult : Prop :=
  WordForm .addDA 0xE080#16 ∧ Gives false .addDA (fun s => Word.w16 (s.d.u16 + s.a.u16)) ∧
  WordForm .subDA 0xE4C0#16 ∧ Gives false .subDA (fun s => Word.w16 (s.d.u16 - s.a.u16)) ∧
  WordForm .subAD 0xE1C0#16 ∧ Gives false .subAD (fun s => Word.w16 (s.a.u16 - s.d.u16))

/-- Comps `D&A` and `D|A` (R167, R168), bit by bit. The words are the spec's decision D1 (log 10). -/
def Obligations.RegisterAndOrResult : Prop :=
  (WordForm .andDA 0xE000#16 ∧ ∃ r : State → Word, Gives false .andDA r ∧
    ∀ s i, (r s).getLsbD i = (s.d.getLsbD i && s.a.getLsbD i)) ∧
  (WordForm .orDA 0xE540#16 ∧ ∃ r : State → Word, Gives false .orDA r ∧
    ∀ s i, (r s).getLsbD i = (s.d.getLsbD i || s.a.getLsbD i))

/-- Comps `M`, `!M`, `-M` (R171 to R173) over the word at the address in A, where that address exists.
The words are the spec's decision D1 (log 10). -/
def Obligations.MemoryPassComplementNegateResult : Prop :=
  WordForm .passM 0xFC00#16 ∧ Gives true .passM mOld ∧
  WordForm .notM 0xFC40#16 ∧ Gives true .notM (fun s => Word.w16 (65535 - (mOld s).u16)) ∧
  WordForm .negM 0xFCC0#16 ∧ Gives true .negM (fun s => Word.w16 (0 - (mOld s).u16))

/-- Comps `M+1` and `M-1` (R174, R175): that `M-1` subtracts whatever `DEC_QUIRK` is rests on the spec's
decision D6 (log 6). The words are the spec's decision D1 (log 10). -/
def Obligations.MemoryIncrementDecrementResult : Prop :=
  WordForm .incM 0xFDC0#16 ∧ Gives true .incM (fun s => Word.w16 ((mOld s).u16 + 1)) ∧
  WordForm .decM 0xFC80#16 ∧ Gives true .decM (fun s => Word.w16 ((mOld s).u16 - 1))

/-- Comps `D+M`, `D-M`, `M-D` (R176 to R178): sum and differences modulo 65536. The words are the spec's
decision D1 (log 10). -/
def Obligations.MemorySumDifferenceResult : Prop :=
  WordForm .addDM 0xF080#16 ∧ Gives true .addDM (fun s => Word.w16 (s.d.u16 + (mOld s).u16)) ∧
  WordForm .subDM 0xF4C0#16 ∧ Gives true .subDM (fun s => Word.w16 (s.d.u16 - (mOld s).u16)) ∧
  WordForm .subMD 0xF1C0#16 ∧ Gives true .subMD (fun s => Word.w16 ((mOld s).u16 - s.d.u16))

/-- Comps `D&M` and `D|M` (R179, R180), bit by bit. The words are the spec's decision D1 (log 10). -/
def Obligations.MemoryAndOrResult : Prop :=
  (WordForm .andDM 0xF000#16 ∧ ∃ r : State → Word, Gives true .andDM r ∧
    ∀ s i, (r s).getLsbD i = (s.d.getLsbD i && (mOld s).getLsbD i)) ∧
  (WordForm .orDM 0xF540#16 ∧ ∃ r : State → Word, Gives true .orDM r ∧
    ∀ s i, (r s).getLsbD i = (s.d.getLsbD i || (mOld s).getLsbD i))

/-- Comps `A<<`, `D<<`, `A>>`, `D>>` (R183, R184, R186, R187): doubling modulo 65536, and halving of the
unsigned reading (a logical shift). The words are the spec's decision D1 (log 10), the logical right
shift D7 (log 9). -/
def Obligations.RegisterShiftResult : Prop :=
  WordForm .shlA 0xA800#16 ∧ Gives false .shlA (fun s => Word.w16 (2 * s.a.u16)) ∧
  WordForm .shlD 0xAC00#16 ∧ Gives false .shlD (fun s => Word.w16 (2 * s.d.u16)) ∧
  WordForm .shrA 0xA000#16 ∧ Gives false .shrA (fun s => Word.w16 (s.a.u16 / 2 : Nat)) ∧
  WordForm .shrD 0xA400#16 ∧ Gives false .shrD (fun s => Word.w16 (s.d.u16 / 2 : Nat))

/-- Comps `M<<` and `M>>` (R185, R188) over the word at the address in A. The words are the spec's
decision D1 (log 10), the logical right shift D7 (log 9). -/
def Obligations.MemoryShiftResult : Prop :=
  WordForm .shlM 0xB800#16 ∧ Gives true .shlM (fun s => Word.w16 (2 * (mOld s).u16)) ∧
  WordForm .shrM 0xB000#16 ∧ Gives true .shrM (fun s => Word.w16 ((mOld s).u16 / 2 : Nat))

/-! ### The cycle: destinations, jumps, faults -/

/-- Destinations `None`, `M`, `D`, `MD`, `A`, `AD` (R191 to R195, R197) with every comp and jump: their
field bits, the targets that receive the result, and everything else but pc unchanged; where M is a
target and its address does not exist, the fault, with D not written.  A comp that reads M there is left
to `MemFaultIsPrecise`.  The field bits are the spec's decision D1 (log 10), the fault D4 (log 8). -/
def Obligations.DestinationStoresResult : Prop :=
  (Dest.noDest.bits = 0b000#3 ∧ ∀ c, StoresTo c .noDest false false false) ∧
  (Dest.m.bits = 0b001#3 ∧ ∀ c, StoresTo c .m false false true) ∧
  (Dest.d.bits = 0b010#3 ∧ ∀ c, StoresTo c .d false true false) ∧
  (Dest.md.bits = 0b011#3 ∧ ∀ c, StoresTo c .md false true true) ∧
  (Dest.a.bits = 0b100#3 ∧ ∀ c, StoresTo c .a true false false) ∧
  (Dest.ad.bits = 0b110#3 ∧ ∀ c, StoresTo c .ad true true false)

/-- Destinations `AM` and `AMD` (R196, R198): the word written is the one the OLD A addressed, which is the
spec's own decision D5 (log 7); the new A is not checked, and everything else but pc is unchanged.  A
comp that reads M at a bad address is left to `MemFaultIsPrecise`.  The field bits are D1 (log 10), the
fault D4 (log 8). -/
def Obligations.StoreWithNewAUsesOldAddress : Prop :=
  (Dest.am.bits = 0b101#3 ∧ ∀ c, StoresTo c .am true false true) ∧
  (Dest.amd.bits = 0b111#3 ∧ ∀ c, StoresTo c .amd true true true)

/-- The eight jump values (R202 to R209): their field bits and the results, read unsigned, for which
each is taken; the destination is stored either way. The field bits are the spec's decision D1 (log 10). -/
def Obligations.JumpsTakenByResultRange : Prop :=
  TakenFor .noJump 0b000#3 (fun _ => False) ∧
  TakenFor .jgt 0b001#3 (fun r => 0x0001 ≤ r ∧ r ≤ 0x7FFF) ∧
  TakenFor .jeq 0b010#3 (fun r => r = 0) ∧
  TakenFor .jge 0b011#3 (fun r => r ≤ 0x7FFF) ∧
  TakenFor .jlt 0b100#3 (fun r => 0x8000 ≤ r) ∧
  TakenFor .jne 0b101#3 (fun r => r ≠ 0) ∧
  TakenFor .jle 0b110#3 (fun r => r = 0 ∨ 0x8000 ≤ r) ∧
  TakenFor .jmp 0b111#3 (fun _ => True)

/-- The jump target (R145, R201): where the signed result passes the jump's test pc is A as the store stage
left it, all 16 bits, so the result if the destination names A and the old A otherwise; where it fails
pc advances. -/
def Obligations.JumpTargetIsCurrentA : Prop :=
  ∀ c dest jump s, Reaches (readsM c) dest s → ∃ t, exec (.ofComp c dest jump) s = .next t ∧
    (JumpTest jump (result Config.decQuirk c s).s16 → t.pc = t.a ∧
      t.pc = if toA dest then result Config.decQuirk c s else s.a) ∧
    (¬ JumpTest jump (result Config.decQuirk c s).s16 → t.pc = Word.w16 (s.pc.u16 + 1))

/-- `MemFault` (R230, R228; the spec's decision D4, log 8): an instruction whose comp or destination names M,
started with a data address above 24576, changes the latch and nothing else. -/
def Obligations.MemFaultIsPrecise : Prop :=
  ∀ c dest jump s, readsM c = true ∨ toM dest = true → 24576 < s.a.u16 →
    exec (.ofComp c dest jump) s = .next { s with fault := .memFault s.a }

/-- No other instruction touches the latch: if `exec` changes it, the instruction is a C-instruction that
names M with a data address above 24576, and the latch is all it changed (R57, R230; D4, log 8). -/
def Obligations.FaultOnlyFromBadDataAddress : Prop :=
  ∀ i s t, exec i s = .next t → t.fault ≠ s.fault →
    24576 < s.a.u16 ∧ t = { s with fault := .memFault s.a } ∧
    ∃ c dest jump, i = .ofComp c dest jump ∧ (readsM c = true ∨ toM dest = true)

/-- What no instruction touches (R30, R31, R33, R36), for all 37: the instruction memory, the breakpoint
set, the stop latch, the symbol table, and every RAM word but the one at the old A. That the old A
addresses the store is D5 (log 7), that it must exist D4 (log 8). -/
def Obligations.InstructionsFrame : Prop :=
  ∀ i s t, exec i s = .next t →
    t.imem = s.imem ∧ t.bp = s.bp ∧ t.stopped = s.stopped ∧ t.symbols = s.symbols ∧
    (∀ b : Word, b ≠ s.a → Memory.read t.ram b = Memory.read s.ram b) ∧
    (t.ram ≠ s.ram → ∃ c dest jump, i = .ofComp c dest jump ∧ toM dest = true ∧ s.a.u16 ≤ 24576) ∧
    (t.d ≠ s.d → ∃ c dest jump, i = .ofComp c dest jump ∧ toD dest = true)

/-- Determinism (R147): two states that agree on A, D, pc and the word at A give the same new A, D, pc and
word at the old A, whatever else they hold, and no other RAM word changes. -/
def Obligations.OutcomeDependsOnSampledState : Prop :=
  ∀ c dest jump s s' t t', s.a = s'.a → s.d = s'.d → s.pc = s'.pc → mOld s = mOld s' →
    exec (.ofComp c dest jump) s = .next t → exec (.ofComp c dest jump) s' = .next t' →
    t.a = t'.a ∧ t.d = t'.d ∧ t.pc = t'.pc ∧ Memory.read t.ram s.a = Memory.read t'.ram s'.a ∧
      ∀ b : Word, b ≠ s.a → Memory.read t.ram b = Memory.read s.ram b

/-- If the comp does not name M the outcome does not depend on RAM at all (R141): with the memory
replaced by any other, the same A, D, pc and fault result, and the same word is stored. The fault clause
rests on D4 (log 8). -/
def Obligations.NoDependenceOnRamWithoutM : Prop :=
  ∀ c dest jump (s : State) (m : Memory), readsM c = false → Reaches false dest s →
    ∃ t t', exec (.ofComp c dest jump) s = .next t ∧ exec (.ofComp c dest jump) { s with ram := m } = .next t' ∧
      t.a = t'.a ∧ t.d = t'.d ∧ t.pc = t'.pc ∧ t.fault = t'.fault ∧
      (toM dest = true → Memory.read t.ram s.a = Memory.read t'.ram s.a)

/-! ### The memory primitives -/

/-- `MemRead` and `MemWrite` (R55, R56): both raise exactly above 24576; a read answers the word RAM holds
there; a write sets its own word, all 16 bits, and changes no other word and no other state.  They are
what a C-instruction does to memory: where its address exists, it computes with the word `MemRead`
answers at the old A, and leaves the RAM `MemWrite` leaves if its destination names M, the old one if
not.  The fault is the spec's decision D4 (log 8), the store's address D5 (log 7). -/
def Obligations.MemReadMemWrite : Prop :=
  (∀ (s : State) (addr v : Word),
    (24576 < addr.u16 → memRead s addr = none ∧ memWrite s addr v = none) ∧
    (addr.u16 ≤ 24576 → memRead s addr = some (Memory.read s.ram addr) ∧
      ∃ t, memWrite s addr v = some t ∧ memRead t addr = some v ∧
        (∀ b : Word, b ≠ addr → memRead t b = memRead s b) ∧ { t with ram := s.ram } = s)) ∧
  (∀ c dest jump (s : State), s.a.u16 ≤ 24576 →
    ∃ m u t, memRead s s.a = some m ∧ memWrite s s.a (alu Config.decQuirk c s.a s.d m) = some u ∧
      exec (.ofComp c dest jump) s = .next t ∧ (readsM c = true → operandM c s = m) ∧
      result Config.decQuirk c s = alu Config.decQuirk c s.a s.d m ∧
      t.ram = if toM dest then u.ram else s.ram)

/-- RAM is canonical data: two well-formed memories that read the same everywhere are the same list.  The
list and its canonical form are the model's own representation of the array of R29 (log 1). -/
def Obligations.MemoryEqualIfReadsEqual : Prop :=
  ∀ m m' : Memory, Memory.wf m = true → Memory.wf m' = true →
    (∀ b : Word, b.u16 ≤ 24576 → Memory.read m b = Memory.read m' b) → m = m'

/-! ### The step -/

/-- The step (R220 to R222): with no fault latched and pc a slot that holds the instruction `i`, `step`
is `exec i` from the state with `stopped` emptied (as the host does at the start of a run, R223; log 4),
then nothing more if that raised a fault, else the bound and breakpoint checks. The order of the checks
is the spec's decision D10 (log 14). -/
def Obligations.StepRunsFetchedInstruction : Prop :=
  ∀ s i, s.fault = .noFault → s.pc.u16 ≤ 32766 → fetch s = .instr i →
    ∃ t, exec i { s with stopped := .empty } = .next t ∧
      ((t.fault ≠ .noFault ∧ step s = .next t) ∨
       (t.fault = .noFault ∧ ∃ u, step s = .next u ∧ ChecksMade t u))

/-- A legal word placed where the machine fetches is the instruction fetched (R58, R96), and nothing but that
slot changes; so by `StepRunsFetchedInstruction` the next step runs it.  Placing one word is the model's
own operation (log 5): it stands for the whole load that R30 and R251 give the host. -/
def Obligations.PlacedWordIsFetched : Prop :=
  ∀ (s : State) (w : Nat) i, w < 65536 → s.pc.u16 ≤ 32766 → decode (BitVec.ofNat 16 w) = .instr i →
    fetch (s.withFetchWord 16 w) = .instr i ∧ decodeTableWord 16 w = some i ∧
    { s.withFetchWord 16 w with imem := s.imem } = s ∧
    (∀ j : Nat, j ≠ s.pc.u16 → InstrMemory.read (s.withFetchWord 16 w).imem j = InstrMemory.read s.imem j)

/-- An illegal word that reaches execution (R231, R97; the spec's decision D3, log 11): the step raises
`IllegalInstruction(W)`, with A, D, pc, RAM as before, and no further step follows.  The latch is the
spec's decision D11; that the step empties `stopped` first (log 4) and that the state after it answers
the named outcome `halted` (log 3) are the model's choice. -/
def Obligations.IllegalWordRaises : Prop :=
  ∀ s w, s.fault = .noFault → s.pc.u16 ≤ 32766 → fetch s = .illegal w →
    ∃ t, step s = .next t ∧ t = { s with fault := .illegalInstruction w, stopped := .empty } ∧
      step t = .fault (.halted (.illegalInstruction w))

/-- The core has a step exactly when no fault is latched and pc is a slot (R220, R35; the latch is the spec's
decision D11).  Where it has none the model's `step` stops under a named outcome, its own choice:
`halted` with the latch's record (log 3), or `pcOutOfRange`, a case R58 only lets a model leave without
a step (log 15). -/
def Obligations.StepExistsExactlyWhenRunnable : Prop :=
  ∀ s : State, ((∃ t, step s = .next t) ↔ s.fault = .noFault ∧ s.pc.u16 ≤ 32766) ∧
    (s.fault ≠ .noFault → step s = .fault (.halted s.fault)) ∧
    (s.fault = .noFault → 32767 ≤ s.pc.u16 → step s = .fault (.pcOutOfRange s.pc))

/-- `PcOverflow` (R232) is a stop: an instruction that raises no fault and leaves pc at or above 32767, by
the advance from slot 32766 or by a jump to A, retires with all its writes, pc becomes 32766, `stopped`
holds the reason, and the value pc briefly held is kept nowhere; and only then is the reason recorded.
That the step empties `stopped` before it executes, which the last clause needs, is the model's choice
(log 4). -/
def Obligations.PcOverflowClampsAndStops : Prop :=
  ∀ s i t, s.fault = .noFault → s.pc.u16 ≤ 32766 → fetch s = .instr i →
    exec i { s with stopped := .empty } = .next t → t.fault = .noFault →
    ∃ u, step s = .next u ∧ (u.stopped.pcOverflow = true ↔ 32767 ≤ t.pc.u16) ∧
      (32767 ≤ t.pc.u16 → ((s.pc = 32766#16 ∧ t.pc = 32767#16) ∨ t.pc = t.a) ∧
        u.pc = 32766#16 ∧ { u with pc := t.pc, stopped := t.stopped } = t)

/-- Breakpoint predicates (R240) match by exact equality of the component; a `RAM` predicate above 24576
never does. That a `RAM` predicate above 24576 may stand in the set is the spec's own (R240). -/
def Obligations.BreakpointMatchesByValue : Prop :=
  ∀ (s : State) (b : Breakpoint), Breakpoint.holds s b = true ↔ Matches s b

/-- A `PC(n)` breakpoint stops the run when pc has just become `n`, before that instruction executes, and
with `n ≥ 32767` can never match (R242): of a step that raises no fault, the stop is recorded if the new
pc is `n`, the run makes no further step, and with `PC(n)` alone in the set nothing else stops it so.
That the step empties `stopped` before it executes, which the last clause needs, is the model's choice
(log 4). -/
def Obligations.PcBreakpointStopsAtTarget : Prop :=
  ∀ s n u, .PC n ∈ s.bp → step s = .next u → u.fault = .noFault →
    (u.pc = n → u.stopped.breakpoint = true ∧ ∀ k, batchSteps k u = u) ∧
    (s.bp = [.PC n] → u.stopped.breakpoint = true → u.pc = n) ∧
    (32767 ≤ n.u16 → ¬ Matches u (.PC n))

/-- Breakpoints have no effect on what any instruction computes (R244): with another set the same step gives
the same A, D, pc, memories, fault and overflow reason. -/
def Obligations.BreakpointsDoNotCompute : Prop :=
  ∀ (s : State) (bp : List Breakpoint) u, step s = .next u → ∃ u', step { s with bp := bp } = .next u' ∧
    u'.bp = bp ∧ u'.pc = u.pc ∧ u'.stopped.pcOverflow = u.stopped.pcOverflow ∧
    { u' with bp := u.bp, stopped := u.stopped } = u

/-- A single step (R225) is the batched step without the breakpoint check: the same state but for the
reason `Breakpoint`, which it never records; the bound check still applies. The bound check in single
step is the spec's decision D23 (log 14). -/
def Obligations.SingleStepSkipsBreakpoints : Prop :=
  ∀ s u, step s = .next u →
    singleStep s = { u with stopped := { u.stopped with breakpoint := false } }

/-- Consecutive batches are one uninterrupted execution (R223): a batch of `n + m` steps is a batch of `n`
followed, if the run has not ended, by one of `m`. -/
def Obligations.BatchesCompose : Prop :=
  ∀ n m s, runBatch (n + m) s =
    if (runBatch n s).runEnded then runBatch n s else runBatch m (runBatch n s)

/-- A program that runs off its end (R132, R275, R266): from a state with no fault and no breakpoint,
whose slots from pc on all hold `NONE`, a long enough batch ends with pc = 32766 and `PcOverflow`, and
nothing else changed. The bound is the spec's decision D9 (log 15). -/
def Obligations.RunOffTheEndStops : Prop :=
  ∀ n s, s.fault = .noFault → s.bp = [] → s.pc.u16 ≤ 32766 →
    (∀ i : Nat, s.pc.u16 ≤ i → i ≤ 32766 → InstrMemory.read s.imem i = .instr .noneOp) →
    32767 - s.pc.u16 ≤ n →
    runBatch n s = { s with pc := 32766#16, stopped := ⟨true, false⟩ }

/-! ### Reset, invariants -/

/-- The state after power-on reset (R260), every field, every word and slot, and every name of the seeded
symbol table (R108; that no other name is bound is said by their number). The values of `imem`, `bp`,
`fault`, `stopped` are the spec's decision D14 (log 13). -/
def Obligations.PowerOnResetState : Prop :=
  State.reset.a = 0x0000#16 ∧ State.reset.d = 0x0000#16 ∧ State.reset.pc = 0#16 ∧
  (∀ b : Word, b.u16 ≤ 24576 → memRead State.reset b = some 0x0000#16) ∧
  (∀ i : Nat, i ≤ 32766 → InstrMemory.read State.reset.imem i = .instr .noneOp) ∧
  State.reset.bp = [] ∧ State.reset.fault = .noFault ∧ State.reset.stopped = ⟨false, false⟩ ∧
  (∀ e ∈ [("R0", 0#16), ("R1", 1#16), ("R2", 2#16), ("R3", 3#16), ("R4", 4#16), ("R5", 5#16), ("R6", 6#16),
        ("R7", 7#16)] ++
      [("R8", 8#16), ("R9", 9#16), ("R10", 10#16), ("R11", 11#16), ("R12", 12#16), ("R13", 13#16),
        ("R14", 14#16), ("R15", 15#16)] ++
      [("SP", 0#16), ("LCL", 1#16), ("ARG", 2#16), ("THIS", 3#16), ("THAT", 4#16), ("SCREEN", 16384#16),
        ("KBD", 24576#16)],
    State.reset.symbols.lookup e.1.toList = some e.2) ∧
  State.reset.symbols.entries.length = 23 ∧ State.reset.symbols.cursor = 16#16

/-- The invariant holds at reset. -/
def Obligations.ResetMeetsInvariant : Prop := State.Inv .reset

/-- Every step keeps the invariant, from every state that meets it: both memories stay canonical, the
breakpoint set and the symbol table keep their form, and pc stays a slot (R25, R28). -/
def Obligations.StepKeepsInvariant : Prop :=
  ∀ s t, State.Inv s → step s = .next t → State.Inv t

/-- Every session of host operations keeps the invariant: loads of any program, image or text, resets,
batches, single steps, keyboard writes and breakpoint edits, in any order (R250). -/
def Obligations.SessionKeepsInvariant : Prop :=
  ∀ ops s, State.Inv s → State.Inv (session ops s)

/-- With the host's loaders the machine never executes an illegal word (R231, R97): from a state with no
illegal slot and no such fault, no session leads to one. The loader's refusal is the spec's decision D3
(log 11). -/
def Obligations.SessionNeverIllegal : Prop :=
  ∀ ops s, NoIllegalSlot s → (∀ w, s.fault ≠ .illegalInstruction w) →
    NoIllegalSlot (session ops s) ∧ ∀ w, (session ops s).fault ≠ .illegalInstruction w

/-! ### The host's operations -/

/-- "reset RAM" (R262): every word becomes `0x0000` and nothing else changes. -/
def Obligations.ResetRamZeroesOnlyMemory : Prop :=
  ∀ s : State, (∀ b : Word, b.u16 ≤ 24576 → memRead (hostStep .resetRam s) b = some 0x0000#16) ∧
    { hostStep .resetRam s with ram := s.ram } = s

/-- "reset run" (R263): pc is 0; that it also clears both latches is the spec's decision D11 (log 3); A, D,
RAM, IMEM, BP and the symbol table are unchanged. -/
def Obligations.ResetRunRestarts : Prop :=
  ∀ s : State, hostStep .resetRun s = { s with pc := 0#16, fault := .noFault, stopped := .empty }

/-- The keyboard write (R62): the word at 24576 becomes the code, every other word and all else stays.
When the host may write is the spec's decision D13 (log 16). -/
def Obligations.KeyboardWriteChangesOneWord : Prop :=
  ∀ (s : State) (code : Word), memRead (hostStep (.writeKeyboard code) s) 24576#16 = some code ∧
    (∀ b : Word, b.u16 ≠ 24576 → memRead (hostStep (.writeKeyboard code) s) b = memRead s b) ∧
    { hostStep (.writeKeyboard code) s with ram := s.ram } = s

/-- A latched fault stays through every host operation but power-on reset, load and reset run, and a batch or
a single step makes no step under it (R35, R228, R236; the latch is the spec's decision D11, log 3). -/
def Obligations.FaultStaysUntilHostClears : Prop :=
  ∀ (s : State) (n : Nat) (code : Word) (b : Breakpoint), s.fault ≠ .noFault →
    hostStep (.batch n) s = { s with stopped := .empty } ∧
    hostStep .singleStep s = { s with stopped := .empty } ∧
    (hostStep .resetRam s).fault = s.fault ∧ (hostStep (.writeKeyboard code) s).fault = s.fault ∧
    (hostStep (.insertBreakpoint b) s).fault = s.fault ∧ (hostStep (.removeBreakpoint b) s).fault = s.fault

/-- A load of instructions that fit (R264; D15, log 17): the slots hold the program and then `NONE`, both
latches are cleared, A, D, pc, RAM and BP stay; a program that does not fit is refused (log 18). -/
def Obligations.LoadInstallsProgram : Prop :=
  ∀ prog s, (prog.length ≤ 32767 → ∃ t, loadInstrs prog s = some t ∧ HoldsProgram t prog ∧ LoadedOver s t) ∧
    (32767 < prog.length → hostStep (.loadInstrs prog) s = s)

/-- An image of words (R97; D3, log 11): one with an illegal word is refused as a whole and the machine is
as before; otherwise, if it fits, the decoded program is installed. -/
def Obligations.ImageWithIllegalWordRefused : Prop :=
  ∀ (image : List Word) (s : State),
    ((∃ w ∈ image, decode w = .illegal w) → hostStep (.loadWords image) s = s) ∧
    (∀ prog : List Instr, image.map decode = prog.map Slot.instr → prog.length ≤ 32767 →
      ∃ t, loadWords image s = some t ∧ HoldsProgram t prog ∧ LoadedOver s t)

/-- A load of text (R264, R122): the assembled program and its symbol table are installed; on an
assembly error nothing of the machine changes. What a load leaves is the spec's decision D15 (log 17). -/
def Obligations.TextLoadInstallsOrKeeps : Prop :=
  ∀ (lines : List Text) (s : State),
    (∀ e, assemble lines = .error e → hostStep (.loadText lines) s = s) ∧
    (∀ prog table, assemble lines = .ok (prog, table) → ∃ t, loadText lines s = .ok t ∧
      hostStep (.loadText lines) s = t ∧ HoldsProgram t prog ∧ LoadedOver s t ∧ t.symbols = table)

/-- The breakpoint set (R243): insertion adds exactly its predicate and is idempotent; removal takes out
exactly its predicate. The order the set is kept in is the model's (log 20). -/
def Obligations.BreakpointSetInsertRemove : Prop :=
  ∀ (b b' : Breakpoint) (bp : List Breakpoint),
    (b' ∈ insertBreakpoint b bp ↔ b' = b ∨ b' ∈ bp) ∧
    insertBreakpoint b (insertBreakpoint b bp) = insertBreakpoint b bp ∧
    (b' ∈ removeBreakpoint b bp ↔ b' ∈ bp ∧ b' ≠ b)

/-- The screen contract (R61, whose row order is general knowledge, D22, log 19): pixel (r, c) is bit
`c mod 16` of the word at `16384 + 32 r + c / 16`, which lies in the screen buffer; two pixels share no
bit; a store of `0xFFFF` to 16384 sets the 16 leftmost pixels of the top row and changes no other, and
one of `0x0001` to 16416 sets the leftmost pixel of the second row, clears the 15 to its right and
changes no other. -/
def Obligations.PixelsTileTheScreen : Prop :=
  (∀ (s : State) (r : Fin 256) (c : Fin 512),
    memRead s (Word.w16 (16384 + 32 * r.val + c.val / 16 : Nat)) = some (Memory.read s.ram (pixelAddr r c)) ∧
    pixelBit s r c = (Memory.read s.ram (Word.w16 (16384 + 32 * r.val + c.val / 16 : Nat))).getLsbD (c.val % 16)) ∧
  (∀ r c, 16384 ≤ (pixelAddr r c).u16 ∧ (pixelAddr r c).u16 ≤ 24575) ∧
  (∀ (r r' : Fin 256) (c c' : Fin 512), pixelAddr r c = pixelAddr r' c' → c.val % 16 = c'.val % 16 → r = r' ∧ c = c') ∧
  (∀ s t, s.a = 16384#16 → exec (.minusOne .m .noJump) s = .next t → ∀ (r : Fin 256) (c : Fin 512),
    pixelBit t r c = if r.val = 0 ∧ c.val < 16 then true else pixelBit s r c) ∧
  (∀ s t, s.a = 16416#16 → exec (.one .m .noJump) s = .next t → ∀ (r : Fin 256) (c : Fin 512),
    pixelBit t r c = if r.val = 1 ∧ c.val < 16 then decide (c.val = 0) else pixelBit s r c)

/-! ### The assembler -/

/-- Assembling the canonical text of an instruction that has a word gives the instruction back (R124).
The shift mnemonics are the spec's decision D18 (log 29). -/
def Obligations.CanonicalTextAssembles : Prop :=
  ∀ i text, Instr.wf i = true → instrText i = some text → ∃ table, assemble [text] = .ok ([i], table)

/-- What an assembled program consists of (R112, R114; D17, log 25): instructions that have a 16-bit word,
never `NONE` or `LABEL`, one for each cleaned line that is no label line. -/
def Obligations.AssembledProgramIsEncodable : Prop :=
  ∀ quirk lines prog table, assembleWith quirk lines = .ok (prog, table) →
    (∀ i ∈ prog, Instr.wf i = true ∧ i ≠ .noneOp ∧ i ≠ .labelOp) ∧
    prog.length = ((clean lines).filter fun l => match lineKind l.text with
      | .label _ => false
      | .address _ => true
      | .compute => true).length ∧
    prog.length ≤ 32767

/-- The forward-label scenario (R110, R112, R125 with its last line made legal) and the variable
scenario (R109, R111), from the spec's worked examples. Labels first is the spec's decision D19 (log
27). -/
def Obligations.SourceScenariosAssemble : Prop :=
  (assemble ["@END".toList, "0;JMP".toList, "D=1".toList, "(END)".toList, "D=-1".toList]).map Prod.fst =
    .ok [.atValue 3#16, .zero .noDest .jmp, .one .d .noJump, .minusOne .d .noJump] ∧
  (assemble ["@x".toList, "@y".toList, "@x".toList, "@16".toList, "@z".toList, "@R5".toList,
      "@KBD".toList]).map Prod.fst =
    .ok [.atValue 16#16, .atValue 17#16, .atValue 16#16, .atValue 16#16, .atValue 18#16, .atValue 5#16,
      .atValue 24576#16]
end

