-- ==== Sys2Proof/Laws/Memory.lean ====
section
/-! SUPPORT. The laws of the sparse arrays: a read after a write, and that every memory operation keeps the
canonical form. -/

namespace Sys2Proof.Machine

section cells
variable {α : Type} (dflt : α)

@[simp] theorem Cells.read_nil (i : Nat) : Cells.read dflt [] i = dflt := rfl

theorem Cells.read_cons (k : Nat) (v : α) (rest : Cells α) (i : Nat) :
    Cells.read dflt ((k, v) :: rest) i = if k = i then v else Cells.read dflt rest i := rfl

theorem Cells.read_erase_same (cells : Cells α) (i : Nat) : Cells.read dflt (Cells.erase cells i) i = dflt := by
  induction cells with
  | nil => rfl
  | cons c rest ih =>
    rcases c with ⟨k, v⟩
    by_cases h : k = i
    · subst h; simpa [Cells.erase] using ih
    · simpa [Cells.erase, Cells.read_cons, h] using ih

theorem Cells.read_erase_other (cells : Cells α) {i j : Nat} (h : j ≠ i) :
    Cells.read dflt (Cells.erase cells i) j = Cells.read dflt cells j := by
  induction cells with
  | nil => rfl
  | cons c rest ih =>
    rcases c with ⟨k, v⟩
    by_cases hk : k = i
    · subst hk
      simpa [Cells.erase, Cells.read_cons, Ne.symm h] using ih
    · by_cases hj : k = j
      · simp [Cells.erase, Cells.read_cons, hj, h]
      · simpa [Cells.erase, Cells.read_cons, hk, hj] using ih

theorem Cells.read_place_same (i : Nat) (x : α) (cells : Cells α) (h : ∀ c ∈ cells, c.1 ≠ i) :
    Cells.read dflt (Cells.place i x cells) i = x := by
  induction cells with
  | nil => simp [Cells.place, Cells.read_cons]
  | cons c rest ih =>
    rcases c with ⟨k, v⟩
    have hk : k ≠ i := h (k, v) (by simp)
    unfold Cells.place
    split
    · simp [Cells.read_cons]
    · simpa [Cells.read_cons, hk] using ih fun c hc => h c (by simp [hc])

theorem Cells.read_place_other {i j : Nat} (hj : j ≠ i) (x : α) (cells : Cells α) :
    Cells.read dflt (Cells.place i x cells) j = Cells.read dflt cells j := by
  induction cells with
  | nil => simp [Cells.place, Cells.read_cons, Ne.symm hj]
  | cons c rest ih =>
    rcases c with ⟨k, v⟩
    unfold Cells.place
    split
    · simp [Cells.read_cons, Ne.symm hj]
    · simp [Cells.read_cons, ih]

theorem Cells.mem_erase {cells : Cells α} {i : Nat} {c : Nat × α} :
    c ∈ Cells.erase cells i ↔ c ∈ cells ∧ c.1 ≠ i := by
  simp [Cells.erase]

theorem Cells.mem_place {i : Nat} {x : α} {cells : Cells α} {c : Nat × α} :
    c ∈ Cells.place i x cells ↔ c = (i, x) ∨ c ∈ cells := by
  induction cells with
  | nil => simp [Cells.place]
  | cons b rest ih =>
    rcases b with ⟨k, v⟩
    unfold Cells.place
    split
    · simp
    · simp [ih, or_left_comm]

theorem Cells.place_pairwise {i : Nat} {x : α} {cells : Cells α} (h : ∀ c ∈ cells, c.1 ≠ i)
    (hs : List.Pairwise (fun c c' : Nat × α => c.1 < c'.1) cells) :
    List.Pairwise (fun c c' : Nat × α => c.1 < c'.1) (Cells.place i x cells) := by
  induction cells with
  | nil => simp [Cells.place]
  | cons b rest ih =>
    rcases b with ⟨k, v⟩
    have hk : k ≠ i := h (k, v) (by simp)
    have hrest := List.pairwise_cons.mp hs
    unfold Cells.place
    split
    case isTrue hik =>
      refine List.pairwise_cons.mpr ⟨fun c hc => ?_, hs⟩
      rcases List.mem_cons.mp hc with rfl | hc
      · exact hik
      · exact Nat.lt_trans hik (hrest.1 c hc)
    case isFalse hik =>
      refine List.pairwise_cons.mpr ⟨fun c hc => ?_, ih (fun c hc => h c (by simp [hc])) hrest.2⟩
      rcases Cells.mem_place.mp hc with rfl | hc
      · simp only; omega
      · exact hrest.1 c hc

variable [DecidableEq α]

@[simp] theorem Cells.read_write_same (cells : Cells α) (i : Nat) (x : α) :
    Cells.read dflt (Cells.write dflt cells i x) i = x := by
  unfold Cells.write
  split
  case isTrue h => rw [Cells.read_erase_same, h]
  case isFalse => exact Cells.read_place_same _ _ _ _ fun c hc => (Cells.mem_erase.mp hc).2

theorem Cells.read_write_other (cells : Cells α) {i j : Nat} (x : α) (h : j ≠ i) :
    Cells.read dflt (Cells.write dflt cells i x) j = Cells.read dflt cells j := by
  unfold Cells.write
  split
  · exact Cells.read_erase_other _ _ h
  · rw [Cells.read_place_other _ h, Cells.read_erase_other _ _ h]

/-- The canonical form, as a proposition. -/
theorem Cells.wf_iff {bound : Nat} {cells : Cells α} :
    Cells.wf dflt bound cells = true ↔
      List.Pairwise (fun c c' : Nat × α => c.1 < c'.1) cells ∧ ∀ c ∈ cells, c.1 < bound ∧ c.2 ≠ dflt := by
  simp [Cells.wf]

theorem Cells.wf_write {bound : Nat} {cells : Cells α} (hw : Cells.wf dflt bound cells = true) {i : Nat} (hi : i < bound)
    (x : α) : Cells.wf dflt bound (Cells.write dflt cells i x) = true := by
  rw [Cells.wf_iff] at hw ⊢
  have he : List.Pairwise (fun c c' : Nat × α => c.1 < c'.1) (Cells.erase cells i) := hw.1.filter _
  unfold Cells.write
  split
  · exact ⟨he, fun c hc => hw.2 c (Cells.mem_erase.mp hc).1⟩
  case isFalse hx =>
    refine ⟨Cells.place_pairwise (fun c hc => (Cells.mem_erase.mp hc).2) he, fun c hc => ?_⟩
    rcases Cells.mem_place.mp hc with rfl | hc
    · exact ⟨hi, hx⟩
    · exact hw.2 c (Cells.mem_erase.mp hc).1

end cells

/-! ### The data memory -/

theorem dataAddrValid_iff (addr : Word) : dataAddrValid addr = true ↔ addr.toNat ≤ 24576 := by
  simp [dataAddrValid, Word.u16]; omega

theorem slotValid_iff (pc : Word) : slotValid pc = true ↔ pc.toNat ≤ 32766 := by
  simp [slotValid, Word.u16]; omega

@[simp] theorem Memory.read_nil (addr : Word) : Memory.read [] addr = 0#16 := rfl

@[simp] theorem Memory.read_write_same (m : Memory) (addr v : Word) :
    Memory.read (Memory.write m addr v) addr = v := by
  simp [Memory.read, Memory.write]

theorem Memory.read_write_other (m : Memory) {addr b : Word} (v : Word) (h : b ≠ addr) :
    Memory.read (Memory.write m addr v) b = Memory.read m b :=
  Cells.read_write_other _ _ _ fun hn => h (BitVec.eq_of_toNat_eq hn)

theorem Memory.wf_write {m : Memory} (hm : Memory.wf m = true) {addr : Word} (ha : dataAddrValid addr = true) (v : Word) :
    Memory.wf (Memory.write m addr v) = true :=
  Cells.wf_write _ hm (by simpa [dataAddrValid] using ha) v

@[simp] theorem Memory.wf_reset : Memory.wf State.reset.ram = true := rfl

/-- `MemRead` answers the word RAM holds, or raises (R55). -/
theorem memRead_eq (s : State) (addr : Word) :
    memRead s addr = if addr.toNat ≤ 24576 then some (Memory.read s.ram addr) else none := by
  simp only [memRead, dataAddrValid_iff]

/-- `MemWrite` is the store the cycle makes, or raises (R56). -/
theorem memWrite_eq (s : State) (addr v : Word) :
    memWrite s addr v = if addr.toNat ≤ 24576 then some (s.setRam addr v) else none := by
  simp only [memWrite, dataAddrValid_iff]

/-! ### The instruction memory -/

@[simp] theorem InstrMemory.read_nil (i : Nat) : InstrMemory.read [] i = .instr .noneOp := rfl

@[simp] theorem InstrMemory.read_write_same (m : InstrMemory) (i : Nat) (x : Slot) :
    InstrMemory.read (InstrMemory.write m i x) i = x := by
  simp [InstrMemory.read, InstrMemory.write]

theorem InstrMemory.wf_write {m : InstrMemory} (hm : InstrMemory.wf m = true) {pc : Word} (hp : slotValid pc = true)
    (x : Slot) : InstrMemory.wf (InstrMemory.write m pc.u16 x) = true :=
  Cells.wf_write _ hm (by simpa [slotValid] using hp) x

@[simp] theorem InstrMemory.wf_reset : InstrMemory.wf State.reset.imem = true := rfl

/-- Every slot a layout lists lies in the program's range and is not filler. -/
theorem layOut_mem {prog : List Instr} {i : Nat} {c : Nat × Slot} (h : c ∈ layOut i prog) :
    i ≤ c.1 ∧ c.1 < i + prog.length ∧ c.2 ≠ .instr .noneOp := by
  induction prog generalizing i with
  | nil => simp [layOut] at h
  | cons x rest ih =>
    by_cases hx : x = .noneOp
    · subst hx
      obtain ⟨h1, h2, h3⟩ := ih (i := i + 1) h
      refine ⟨by omega, by simp; omega, h3⟩
    · rw [layOut.eq_3 _ _ _ (by simpa using hx)] at h
      rcases List.mem_cons.mp h with rfl | h
      · simpa using hx
      · obtain ⟨h1, h2, h3⟩ := ih (i := i + 1) h
        refine ⟨by omega, by simp; omega, h3⟩

theorem layOut_pairwise (prog : List Instr) (i : Nat) :
    List.Pairwise (fun c c' : Nat × Slot => c.1 < c'.1) (layOut i prog) := by
  induction prog generalizing i with
  | nil => simp [layOut]
  | cons x rest ih =>
    by_cases hx : x = .noneOp
    · subst hx; exact ih (i + 1)
    · rw [layOut.eq_3 _ _ _ (by simpa using hx)]
      exact List.pairwise_cons.mpr ⟨fun c hc => (layOut_mem hc).1, ih (i + 1)⟩

theorem layOut_wf {prog : List Instr} (h : programFits prog = true) : InstrMemory.wf (layOut 0 prog) = true := by
  rw [InstrMemory.wf, Cells.wf_iff]
  refine ⟨layOut_pairwise _ _, fun c hc => ?_⟩
  obtain ⟨-, h2, h3⟩ := layOut_mem hc
  have : prog.length ≤ 32767 := by simpa [programFits] using h
  exact ⟨by simp; omega, h3⟩

/-- Below its first index a layout lists nothing. -/
theorem layOut_read_below (prog : List Instr) {k i : Nat} (h : i < k) :
    InstrMemory.read (layOut k prog) i = .instr .noneOp := by
  have hm : ∀ c ∈ layOut k prog, c.1 ≠ i := fun c hc => by have := (layOut_mem hc).1; omega
  revert hm
  generalize layOut k prog = m
  intro hm
  induction m with
  | nil => rfl
  | cons c m ih =>
    rw [InstrMemory.read, Cells.read_cons, if_neg (hm c (by simp))]
    exact ih fun c hc => hm c (by simp [hc])

/-- A layout reads as the program, then as filler (R121). -/
theorem layOut_read (prog : List Instr) {k i : Nat} (h : k ≤ i) :
    InstrMemory.read (layOut k prog) i = .instr (prog[i - k]?.getD .noneOp) := by
  induction prog generalizing k with
  | nil => rfl
  | cons x rest ih =>
    rcases Nat.eq_or_lt_of_le h with rfl | hlt
    · by_cases hx : x = .noneOp
      · subst hx; rw [layOut, layOut_read_below _ (Nat.lt_succ_self _)]; simp
      · rw [layOut, InstrMemory.read, Cells.read_cons, if_pos rfl]
        · simp
        · exact hx
    · have hr : (x :: rest)[i - k]? = rest[i - (k + 1)]? := by
        rw [show i - k = (i - (k + 1)) + 1 by omega]; simp
      rw [hr, ← ih hlt]
      by_cases hx : x = .noneOp
      · subst hx; rw [layOut]
      · rw [layOut, InstrMemory.read, Cells.read_cons, if_neg (by omega)]
        · rfl
        · exact hx

end Sys2Proof.Machine
end

