-- ==== Sys2Proof/Laws/State.lean ====
section
/-! SUPPORT. One lemma per field per update of the state. -/

namespace Sys2Proof.Machine

variable (s : State)

/-! `State.setA` -/

@[simp] theorem State.setA_a (v : Word) : (s.setA v).a = v := rfl
@[simp] theorem State.setA_d (v : Word) : (s.setA v).d = s.d := rfl
@[simp] theorem State.setA_pc (v : Word) : (s.setA v).pc = s.pc := rfl
@[simp] theorem State.setA_ram (v : Word) : (s.setA v).ram = s.ram := rfl
@[simp] theorem State.setA_imem (v : Word) : (s.setA v).imem = s.imem := rfl
@[simp] theorem State.setA_bp (v : Word) : (s.setA v).bp = s.bp := rfl
@[simp] theorem State.setA_fault (v : Word) : (s.setA v).fault = s.fault := rfl
@[simp] theorem State.setA_stopped (v : Word) : (s.setA v).stopped = s.stopped := rfl
@[simp] theorem State.setA_symbols (v : Word) : (s.setA v).symbols = s.symbols := rfl

/-! `State.setD` -/

@[simp] theorem State.setD_a (v : Word) : (s.setD v).a = s.a := rfl
@[simp] theorem State.setD_d (v : Word) : (s.setD v).d = v := rfl
@[simp] theorem State.setD_pc (v : Word) : (s.setD v).pc = s.pc := rfl
@[simp] theorem State.setD_ram (v : Word) : (s.setD v).ram = s.ram := rfl
@[simp] theorem State.setD_imem (v : Word) : (s.setD v).imem = s.imem := rfl
@[simp] theorem State.setD_bp (v : Word) : (s.setD v).bp = s.bp := rfl
@[simp] theorem State.setD_fault (v : Word) : (s.setD v).fault = s.fault := rfl
@[simp] theorem State.setD_stopped (v : Word) : (s.setD v).stopped = s.stopped := rfl
@[simp] theorem State.setD_symbols (v : Word) : (s.setD v).symbols = s.symbols := rfl

/-! `State.setPc` -/

@[simp] theorem State.setPc_a (t : Word) : (s.setPc t).a = s.a := rfl
@[simp] theorem State.setPc_d (t : Word) : (s.setPc t).d = s.d := rfl
@[simp] theorem State.setPc_pc (t : Word) : (s.setPc t).pc = t := rfl
@[simp] theorem State.setPc_ram (t : Word) : (s.setPc t).ram = s.ram := rfl
@[simp] theorem State.setPc_imem (t : Word) : (s.setPc t).imem = s.imem := rfl
@[simp] theorem State.setPc_bp (t : Word) : (s.setPc t).bp = s.bp := rfl
@[simp] theorem State.setPc_fault (t : Word) : (s.setPc t).fault = s.fault := rfl
@[simp] theorem State.setPc_stopped (t : Word) : (s.setPc t).stopped = s.stopped := rfl
@[simp] theorem State.setPc_symbols (t : Word) : (s.setPc t).symbols = s.symbols := rfl

/-! `State.setRam` -/

@[simp] theorem State.setRam_a (addr v : Word) : (s.setRam addr v).a = s.a := rfl
@[simp] theorem State.setRam_d (addr v : Word) : (s.setRam addr v).d = s.d := rfl
@[simp] theorem State.setRam_pc (addr v : Word) : (s.setRam addr v).pc = s.pc := rfl
@[simp] theorem State.setRam_ram (addr v : Word) : (s.setRam addr v).ram = Memory.write s.ram addr v := rfl
@[simp] theorem State.setRam_imem (addr v : Word) : (s.setRam addr v).imem = s.imem := rfl
@[simp] theorem State.setRam_bp (addr v : Word) : (s.setRam addr v).bp = s.bp := rfl
@[simp] theorem State.setRam_fault (addr v : Word) : (s.setRam addr v).fault = s.fault := rfl
@[simp] theorem State.setRam_stopped (addr v : Word) : (s.setRam addr v).stopped = s.stopped := rfl
@[simp] theorem State.setRam_symbols (addr v : Word) : (s.setRam addr v).symbols = s.symbols := rfl

/-! `State.advance` -/

@[simp] theorem State.advance_a : (s.advance).a = s.a := rfl
@[simp] theorem State.advance_d : (s.advance).d = s.d := rfl
@[simp] theorem State.advance_pc : (s.advance).pc = s.pc + 1#16 := rfl
@[simp] theorem State.advance_ram : (s.advance).ram = s.ram := rfl
@[simp] theorem State.advance_imem : (s.advance).imem = s.imem := rfl
@[simp] theorem State.advance_bp : (s.advance).bp = s.bp := rfl
@[simp] theorem State.advance_fault : (s.advance).fault = s.fault := rfl
@[simp] theorem State.advance_stopped : (s.advance).stopped = s.stopped := rfl
@[simp] theorem State.advance_symbols : (s.advance).symbols = s.symbols := rfl

/-! `State.raise` -/

@[simp] theorem State.raise_a (f : FaultLatch) : (s.raise f).a = s.a := rfl
@[simp] theorem State.raise_d (f : FaultLatch) : (s.raise f).d = s.d := rfl
@[simp] theorem State.raise_pc (f : FaultLatch) : (s.raise f).pc = s.pc := rfl
@[simp] theorem State.raise_ram (f : FaultLatch) : (s.raise f).ram = s.ram := rfl
@[simp] theorem State.raise_imem (f : FaultLatch) : (s.raise f).imem = s.imem := rfl
@[simp] theorem State.raise_bp (f : FaultLatch) : (s.raise f).bp = s.bp := rfl
@[simp] theorem State.raise_fault (f : FaultLatch) : (s.raise f).fault = f := rfl
@[simp] theorem State.raise_stopped (f : FaultLatch) : (s.raise f).stopped = s.stopped := rfl
@[simp] theorem State.raise_symbols (f : FaultLatch) : (s.raise f).symbols = s.symbols := rfl

/-! `State.stopPcOverflow` -/

@[simp] theorem State.stopPcOverflow_a : (s.stopPcOverflow).a = s.a := rfl
@[simp] theorem State.stopPcOverflow_d : (s.stopPcOverflow).d = s.d := rfl
@[simp] theorem State.stopPcOverflow_pc : (s.stopPcOverflow).pc = s.pc := rfl
@[simp] theorem State.stopPcOverflow_ram : (s.stopPcOverflow).ram = s.ram := rfl
@[simp] theorem State.stopPcOverflow_imem : (s.stopPcOverflow).imem = s.imem := rfl
@[simp] theorem State.stopPcOverflow_bp : (s.stopPcOverflow).bp = s.bp := rfl
@[simp] theorem State.stopPcOverflow_fault : (s.stopPcOverflow).fault = s.fault := rfl
@[simp] theorem State.stopPcOverflow_stopped : (s.stopPcOverflow).stopped = ⟨true, s.stopped.breakpoint⟩ := rfl
@[simp] theorem State.stopPcOverflow_symbols : (s.stopPcOverflow).symbols = s.symbols := rfl

/-! `State.stopBreakpoint` -/

@[simp] theorem State.stopBreakpoint_a : (s.stopBreakpoint).a = s.a := rfl
@[simp] theorem State.stopBreakpoint_d : (s.stopBreakpoint).d = s.d := rfl
@[simp] theorem State.stopBreakpoint_pc : (s.stopBreakpoint).pc = s.pc := rfl
@[simp] theorem State.stopBreakpoint_ram : (s.stopBreakpoint).ram = s.ram := rfl
@[simp] theorem State.stopBreakpoint_imem : (s.stopBreakpoint).imem = s.imem := rfl
@[simp] theorem State.stopBreakpoint_bp : (s.stopBreakpoint).bp = s.bp := rfl
@[simp] theorem State.stopBreakpoint_fault : (s.stopBreakpoint).fault = s.fault := rfl
@[simp] theorem State.stopBreakpoint_stopped : (s.stopBreakpoint).stopped = ⟨s.stopped.pcOverflow, true⟩ := rfl
@[simp] theorem State.stopBreakpoint_symbols : (s.stopBreakpoint).symbols = s.symbols := rfl

/-! `State.clearStopped` -/

@[simp] theorem State.clearStopped_a : (s.clearStopped).a = s.a := rfl
@[simp] theorem State.clearStopped_d : (s.clearStopped).d = s.d := rfl
@[simp] theorem State.clearStopped_pc : (s.clearStopped).pc = s.pc := rfl
@[simp] theorem State.clearStopped_ram : (s.clearStopped).ram = s.ram := rfl
@[simp] theorem State.clearStopped_imem : (s.clearStopped).imem = s.imem := rfl
@[simp] theorem State.clearStopped_bp : (s.clearStopped).bp = s.bp := rfl
@[simp] theorem State.clearStopped_fault : (s.clearStopped).fault = s.fault := rfl
@[simp] theorem State.clearStopped_stopped : (s.clearStopped).stopped = .empty := rfl
@[simp] theorem State.clearStopped_symbols : (s.clearStopped).symbols = s.symbols := rfl

/-! `resetRam` -/

@[simp] theorem resetRam_a : (resetRam s).a = s.a := rfl
@[simp] theorem resetRam_d : (resetRam s).d = s.d := rfl
@[simp] theorem resetRam_pc : (resetRam s).pc = s.pc := rfl
@[simp] theorem resetRam_ram : (resetRam s).ram = [] := rfl
@[simp] theorem resetRam_imem : (resetRam s).imem = s.imem := rfl
@[simp] theorem resetRam_bp : (resetRam s).bp = s.bp := rfl
@[simp] theorem resetRam_fault : (resetRam s).fault = s.fault := rfl
@[simp] theorem resetRam_stopped : (resetRam s).stopped = s.stopped := rfl
@[simp] theorem resetRam_symbols : (resetRam s).symbols = s.symbols := rfl

/-! `resetRun` -/

@[simp] theorem resetRun_a : (resetRun s).a = s.a := rfl
@[simp] theorem resetRun_d : (resetRun s).d = s.d := rfl
@[simp] theorem resetRun_pc : (resetRun s).pc = 0#16 := rfl
@[simp] theorem resetRun_ram : (resetRun s).ram = s.ram := rfl
@[simp] theorem resetRun_imem : (resetRun s).imem = s.imem := rfl
@[simp] theorem resetRun_bp : (resetRun s).bp = s.bp := rfl
@[simp] theorem resetRun_fault : (resetRun s).fault = .noFault := rfl
@[simp] theorem resetRun_stopped : (resetRun s).stopped = .empty := rfl
@[simp] theorem resetRun_symbols : (resetRun s).symbols = s.symbols := rfl

/-! `writeKeyboard` -/

@[simp] theorem writeKeyboard_a (w : Word) : (writeKeyboard w s).a = s.a := rfl
@[simp] theorem writeKeyboard_d (w : Word) : (writeKeyboard w s).d = s.d := rfl
@[simp] theorem writeKeyboard_pc (w : Word) : (writeKeyboard w s).pc = s.pc := rfl
@[simp] theorem writeKeyboard_ram (w : Word) : (writeKeyboard w s).ram = Memory.write s.ram 24576#16 w := rfl
@[simp] theorem writeKeyboard_imem (w : Word) : (writeKeyboard w s).imem = s.imem := rfl
@[simp] theorem writeKeyboard_bp (w : Word) : (writeKeyboard w s).bp = s.bp := rfl
@[simp] theorem writeKeyboard_fault (w : Word) : (writeKeyboard w s).fault = s.fault := rfl
@[simp] theorem writeKeyboard_stopped (w : Word) : (writeKeyboard w s).stopped = s.stopped := rfl
@[simp] theorem writeKeyboard_symbols (w : Word) : (writeKeyboard w s).symbols = s.symbols := rfl

/-! `installProgram` -/

@[simp] theorem installProgram_a (prog : List Instr) (table : SymbolTable) : (installProgram prog table s).a = s.a := rfl
@[simp] theorem installProgram_d (prog : List Instr) (table : SymbolTable) : (installProgram prog table s).d = s.d := rfl
@[simp] theorem installProgram_pc (prog : List Instr) (table : SymbolTable) : (installProgram prog table s).pc = s.pc := rfl
@[simp] theorem installProgram_ram (prog : List Instr) (table : SymbolTable) : (installProgram prog table s).ram = s.ram := rfl
@[simp] theorem installProgram_imem (prog : List Instr) (table : SymbolTable) : (installProgram prog table s).imem = layOut 0 prog := rfl
@[simp] theorem installProgram_bp (prog : List Instr) (table : SymbolTable) : (installProgram prog table s).bp = s.bp := rfl
@[simp] theorem installProgram_fault (prog : List Instr) (table : SymbolTable) : (installProgram prog table s).fault = .noFault := rfl
@[simp] theorem installProgram_stopped (prog : List Instr) (table : SymbolTable) : (installProgram prog table s).stopped = .empty := rfl
@[simp] theorem installProgram_symbols (prog : List Instr) (table : SymbolTable) : (installProgram prog table s).symbols = table := rfl

/-! Latches -/

@[simp] theorem State.faulted_eq_false_iff : s.faulted = false ↔ s.fault = .noFault := by
  simp [State.faulted]

@[simp] theorem State.faulted_eq_true_iff : s.faulted = true ↔ s.fault ≠ .noFault := by
  simp [State.faulted]

@[simp] theorem StopReasons.any_empty : StopReasons.empty.any = false := rfl

@[simp] theorem State.clearStopped_idem : s.clearStopped.clearStopped = s.clearStopped := rfl

theorem StopReasons.any_eq_false_iff (r : StopReasons) : r.any = false ↔ r = .empty := by
  rcases r with ⟨p, b⟩
  cases p <;> cases b <;> decide

theorem State.clearStopped_of_not_any (h : s.stopped.any = false) : s.clearStopped = s := by
  rw [StopReasons.any_eq_false_iff] at h
  cases s
  simp_all [State.clearStopped]

end Sys2Proof.Machine
end

