-- ==== Sys2Proof/Laws/Cycle.lean ====
section
/-! SUPPORT. What one instruction can do: `exec` by the typed form, the store stage field by field, and the
two ways a C-instruction can end. -/

namespace Sys2Proof.Machine

/-! ### The typed form -/

@[simp] theorem Instr.typed_ofComp (c : Comp) (dest : Dest) (jump : Jump) :
    (Instr.ofComp c dest jump).typed = .C dest c jump := by
  cases c <;> rfl

@[simp] theorem Instr.ofTyped_typed (i : Instr) : Instr.ofTyped i.typed = i := by
  cases i <;> rfl

@[simp] theorem Instr.typed_ofTyped (t : TypedInstr) : (Instr.ofTyped t).typed = t := by
  cases t with
  | C dest c jump => exact Instr.typed_ofComp c dest jump
  | A v => rfl
  | LABEL => rfl
  | NONE => rfl

/-- `exec` dispatches on the variant (R221). -/
theorem exec_typed (i : Instr) (s : State) :
    exec i s = match i.typed with
      | .A v => .next (s.setA v).advance
      | .C dest c jump => execCompute c dest jump s
      | .LABEL => .next s.advance
      | .NONE => .next s.advance := by
  cases i <;> rfl

theorem exec_ofComp (c : Comp) (dest : Dest) (jump : Jump) (s : State) :
    exec (.ofComp c dest jump) s = execCompute c dest jump s := by
  rw [exec_typed, Instr.typed_ofComp]

/-! ### The stages -/

section store
variable (dest : Dest) (addr r : Word) (s : State)

@[simp] theorem store_a : (store dest addr r s).a = if toA dest then r else s.a := by cases dest <;> rfl
@[simp] theorem store_d : (store dest addr r s).d = if toD dest then r else s.d := by cases dest <;> rfl
@[simp] theorem store_pc : (store dest addr r s).pc = s.pc := by cases dest <;> rfl
@[simp] theorem store_ram : (store dest addr r s).ram = if toM dest then Memory.write s.ram addr r else s.ram := by
  cases dest <;> rfl
@[simp] theorem store_imem : (store dest addr r s).imem = s.imem := by cases dest <;> rfl
@[simp] theorem store_bp : (store dest addr r s).bp = s.bp := by cases dest <;> rfl
@[simp] theorem store_fault : (store dest addr r s).fault = s.fault := by cases dest <;> rfl
@[simp] theorem store_stopped : (store dest addr r s).stopped = s.stopped := by cases dest <;> rfl
@[simp] theorem store_symbols : (store dest addr r s).symbols = s.symbols := by cases dest <;> rfl

end store

section decidePc
variable (jump : Jump) (r : Word) (s : State)

@[simp] theorem decidePc_pc : (decidePc jump r s).pc = if jumpCond jump r then s.a else s.pc + 1#16 := by
  unfold decidePc; split <;> rfl
@[simp] theorem decidePc_a : (decidePc jump r s).a = s.a := by unfold decidePc; split <;> rfl
@[simp] theorem decidePc_d : (decidePc jump r s).d = s.d := by unfold decidePc; split <;> rfl
@[simp] theorem decidePc_ram : (decidePc jump r s).ram = s.ram := by unfold decidePc; split <;> rfl
@[simp] theorem decidePc_imem : (decidePc jump r s).imem = s.imem := by unfold decidePc; split <;> rfl
@[simp] theorem decidePc_bp : (decidePc jump r s).bp = s.bp := by unfold decidePc; split <;> rfl
@[simp] theorem decidePc_fault : (decidePc jump r s).fault = s.fault := by unfold decidePc; split <;> rfl
@[simp] theorem decidePc_stopped : (decidePc jump r s).stopped = s.stopped := by unfold decidePc; split <;> rfl
@[simp] theorem decidePc_symbols : (decidePc jump r s).symbols = s.symbols := by unfold decidePc; split <;> rfl

end decidePc

/-- The ALU function of a comp that does not name M ignores the third operand (R141). -/
theorem alu_of_not_readsM {c : Comp} (h : readsM c = false) (quirk : Bool) (a d m m' : Word) :
    alu quirk c a d m = alu quirk c a d m' := by
  cases c <;> first | rfl | simp [readsM] at h

/-- The two ways a C-instruction ends (R146): the fault of R230 with nothing else changed, or the store and
the pc decision. -/
theorem execComputeWith_cases (quirk : Bool) (c : Comp) (dest : Dest) (jump : Jump) (s : State) :
    (namesM c dest = true ∧ dataAddrValid s.a = false ∧
      execComputeWith quirk c dest jump s = .next (s.raise (.memFault s.a))) ∨
    ((namesM c dest = false ∨ dataAddrValid s.a = true) ∧
      execComputeWith quirk c dest jump s =
        .next (decidePc jump (result quirk c s) (store dest s.a (result quirk c s) s))) := by
  unfold execComputeWith
  cases h : namesM c dest <;> cases h' : dataAddrValid s.a <;> simp

/-- Where every named address exists, a C-instruction completes. -/
theorem execCompute_next {c : Comp} {dest : Dest} (jump : Jump) {s : State}
    (h : namesM c dest = true → dataAddrValid s.a = true) :
    execCompute c dest jump s = .next (decidePc jump (result Config.decQuirk c s)
      (store dest s.a (result Config.decQuirk c s) s)) := by
  rcases execComputeWith_cases Config.decQuirk c dest jump s with ⟨h1, h2, -⟩ | ⟨-, h2⟩
  · simp [h h1] at h2
  · exact h2

/-- Every instruction is a C-instruction, a load of A, or one of the two no-operations (R80). -/
theorem Instr.eq_cases (i : Instr) :
    (∃ c dest jump, i = .ofComp c dest jump) ∨ (∃ v, i = .atValue v) ∨ i = .labelOp ∨ i = .noneOp := by
  rw [← Instr.ofTyped_typed i]
  cases i.typed with
  | C dest c jump => exact .inl ⟨c, dest, jump, rfl⟩
  | A v => exact .inr (.inl ⟨v, rfl⟩)
  | LABEL => exact .inr (.inr (.inl rfl))
  | NONE => exact .inr (.inr (.inr rfl))

/-- `exec` always answers a next state (R221). -/
theorem exec_isNext (i : Instr) (s : State) : ∃ t, exec i s = .next t := by
  rw [exec_typed]
  cases h : i.typed with
  | C dest c jump =>
    rcases execComputeWith_cases Config.decQuirk c dest jump s with ⟨-, -, h⟩ | ⟨-, h⟩
    · exact ⟨_, h⟩
    · exact ⟨_, h⟩
  | A v => exact ⟨_, rfl⟩
  | LABEL => exact ⟨_, rfl⟩
  | NONE => exact ⟨_, rfl⟩

end Sys2Proof.Machine
end

