-- ==== Sys2Proof/Laws/Operands.lean ====
section
/-! SUPPORT. The word operations and the two transient conditions in terms of numbers. -/

namespace Sys2Proof.Machine

/-- `shl1` doubles modulo 65536 (R182). -/
theorem shl1_toNat (w : Word) : (shl1 w).toNat = 2 * w.toNat % 65536 := by
  simp [shl1, Nat.shiftLeft_eq, Nat.mul_comm]

/-- `shr1` halves the unsigned reading (R182). -/
theorem shr1_toNat (w : Word) : (shr1 w).toNat = w.toNat / 2 := by
  simp [shr1, Nat.shiftRight_eq_div_pow]

/-- `shl1(w) = {w[14:0], 0b0}`, bit by bit (R12). -/
theorem shl1_getLsbD (w : Word) (i : Nat) : (shl1 w).getLsbD i = (decide (0 < i ∧ i < 16) && w.getLsbD (i - 1)) := by
  rcases i with _ | i <;> simp [shl1, BitVec.getLsbD_shiftLeft]

/-- `shr1(w) = {0b0, w[15:1]}`, bit by bit (R12). -/
theorem shr1_getLsbD (w : Word) (i : Nat) : (shr1 w).getLsbD i = w.getLsbD (i + 1) := by
  simp [shr1, Nat.add_comm]

/-- `ng` is the sign of the two's-complement reading (R32). -/
theorem ng_iff (r : Word) : ng r = true ↔ r.toInt < 0 := by
  rw [ng, ← BitVec.msb_eq_getLsbD_last, BitVec.msb_eq_toInt]; simp

theorem ng_iff_toNat (r : Word) : ng r = true ↔ 32768 ≤ r.toNat := by
  rw [ng, ← BitVec.msb_eq_getLsbD_last, BitVec.msb_eq_decide]; simp

/-- `zr` says that the reading is zero (R32). -/
theorem zr_iff (r : Word) : zr r = true ↔ r.toInt = 0 := by
  simp [zr, ← BitVec.toInt_inj]

theorem zr_iff_toNat (r : Word) : zr r = true ↔ r.toNat = 0 := by
  simp [zr, ← BitVec.toNat_inj]

/-- The successor of a word, as `w16` of its number (R26). -/
theorem w16_succ (w : Word) : Word.w16 (w.u16 + 1) = w + 1#16 := by
  rw [Word.w16, Word.u16, BitVec.ofInt_add, BitVec.ofInt_natCast, BitVec.ofNat_toNat]
  simp

end Sys2Proof.Machine
end

