-- ==== Sys2Proof/Laws/PerInstr.lean ====
section
/-! SUPPORT. The words of each instruction against its row of spec/opcode_table.json: the family `RowBits`,
one lemma per constructor. -/

namespace Sys2Proof.Laws

/-- The columns `mask` and `match` of an instruction's row in the opcode table. -/
def RowBits.row : Instr → Word × Word
  | .atValue _ => (0x8000#16, 0x0000#16)
  | .zero _ _ => (0xFFC0#16, 0xEA80#16)
  | .one _ _ => (0xFFC0#16, 0xEFC0#16)
  | .minusOne _ _ => (0xFFC0#16, 0xEE80#16)
  | .passD _ _ => (0xFFC0#16, 0xE300#16)
  | .passA _ _ => (0xFFC0#16, 0xEC00#16)
  | .notD _ _ => (0xFFC0#16, 0xE340#16)
  | .notA _ _ => (0xFFC0#16, 0xEC40#16)
  | .negD _ _ => (0xFFC0#16, 0xE3C0#16)
  | .negA _ _ => (0xFFC0#16, 0xECC0#16)
  | .incD _ _ => (0xFFC0#16, 0xE7C0#16)
  | .incA _ _ => (0xFFC0#16, 0xEDC0#16)
  | .decD _ _ => (0xFFC0#16, 0xE380#16)
  | .decA _ _ => (0xFFC0#16, 0xEC80#16)
  | .addDA _ _ => (0xFFC0#16, 0xE080#16)
  | .subDA _ _ => (0xFFC0#16, 0xE4C0#16)
  | .subAD _ _ => (0xFFC0#16, 0xE1C0#16)
  | .andDA _ _ => (0xFFC0#16, 0xE000#16)
  | .orDA _ _ => (0xFFC0#16, 0xE540#16)
  | .passM _ _ => (0xFFC0#16, 0xFC00#16)
  | .notM _ _ => (0xFFC0#16, 0xFC40#16)
  | .negM _ _ => (0xFFC0#16, 0xFCC0#16)
  | .incM _ _ => (0xFFC0#16, 0xFDC0#16)
  | .decM _ _ => (0xFFC0#16, 0xFC80#16)
  | .addDM _ _ => (0xFFC0#16, 0xF080#16)
  | .subDM _ _ => (0xFFC0#16, 0xF4C0#16)
  | .subMD _ _ => (0xFFC0#16, 0xF1C0#16)
  | .andDM _ _ => (0xFFC0#16, 0xF000#16)
  | .orDM _ _ => (0xFFC0#16, 0xF540#16)
  | .shlA _ _ => (0xFFC0#16, 0xA800#16)
  | .shlD _ _ => (0xFFC0#16, 0xAC00#16)
  | .shlM _ _ => (0xFFC0#16, 0xB800#16)
  | .shrA _ _ => (0xFFC0#16, 0xA000#16)
  | .shrD _ _ => (0xFFC0#16, 0xA400#16)
  | .shrM _ _ => (0xFFC0#16, 0xB000#16)
  | .noneOp => (0xFFFF#16, 0x8000#16)
  | .labelOp => (0xFFFF#16, 0x8001#16)

/-- The word of the instruction, where it has one, carries its row's fixed bits (R93, R94). -/
def RowBits.Statement (i : Instr) : Prop :=
  ∀ w, encode i = some w → w &&& (RowBits.row i).1 = (RowBits.row i).2

/-- The comp bits of a C word survive the destination and jump fields (R93). -/
theorem encodeC_comp_bits (dest : Dest) (c : Comp) (jump : Jump) : encodeC dest c jump &&& 0xFFC0#16 = c.matchWord := by
  have h : ∀ x j : BitVec 3, (x.zeroExtend 16 <<< 3) &&& 0xFFC0#16 = 0#16 ∧ j.zeroExtend 16 &&& 0xFFC0#16 = 0#16 := by
    decide
  have hm : c.matchWord &&& 0xFFC0#16 = c.matchWord := by cases c <;> rfl
  simp only [encodeC, BitVec.and_comm _ (0xFFC0#16), BitVec.and_or_distrib_left] at *
  rw [hm, (h dest.bits jump.bits).1, (h dest.bits jump.bits).2, BitVec.or_zero, BitVec.or_zero]

theorem RowBits.ofComp (c : Comp) (dest : Dest) (jump : Jump) (i : Instr) (hi : i.typed = .C dest c jump)
    (hrow : RowBits.row i = (0xFFC0#16, c.matchWord)) : RowBits.Statement i := by
  intro w h
  simp only [encode, hi, Option.some.injEq] at h
  rw [hrow, ← h]
  exact encodeC_comp_bits dest c jump

theorem RowBits.atValue (v : Word) : RowBits.Statement (.atValue v) := by
  intro w h
  simp only [encode, Instr.typed] at h
  split at h
  · simp at h
  · simp only [Option.some.injEq] at h
    subst h
    ext i hi
    simp only [RowBits.row, BitVec.getElem_and]
    interval_cases i <;> simp_all

theorem RowBits.zero (dest : Dest) (jump : Jump) : RowBits.Statement (.zero dest jump) :=
  RowBits.ofComp .zero dest jump _ rfl rfl

theorem RowBits.one (dest : Dest) (jump : Jump) : RowBits.Statement (.one dest jump) :=
  RowBits.ofComp .one dest jump _ rfl rfl

theorem RowBits.minusOne (dest : Dest) (jump : Jump) : RowBits.Statement (.minusOne dest jump) :=
  RowBits.ofComp .minusOne dest jump _ rfl rfl

theorem RowBits.passD (dest : Dest) (jump : Jump) : RowBits.Statement (.passD dest jump) :=
  RowBits.ofComp .passD dest jump _ rfl rfl

theorem RowBits.passA (dest : Dest) (jump : Jump) : RowBits.Statement (.passA dest jump) :=
  RowBits.ofComp .passA dest jump _ rfl rfl

theorem RowBits.notD (dest : Dest) (jump : Jump) : RowBits.Statement (.notD dest jump) :=
  RowBits.ofComp .notD dest jump _ rfl rfl

theorem RowBits.notA (dest : Dest) (jump : Jump) : RowBits.Statement (.notA dest jump) :=
  RowBits.ofComp .notA dest jump _ rfl rfl

theorem RowBits.negD (dest : Dest) (jump : Jump) : RowBits.Statement (.negD dest jump) :=
  RowBits.ofComp .negD dest jump _ rfl rfl

theorem RowBits.negA (dest : Dest) (jump : Jump) : RowBits.Statement (.negA dest jump) :=
  RowBits.ofComp .negA dest jump _ rfl rfl

theorem RowBits.incD (dest : Dest) (jump : Jump) : RowBits.Statement (.incD dest jump) :=
  RowBits.ofComp .incD dest jump _ rfl rfl

theorem RowBits.incA (dest : Dest) (jump : Jump) : RowBits.Statement (.incA dest jump) :=
  RowBits.ofComp .incA dest jump _ rfl rfl

theorem RowBits.decD (dest : Dest) (jump : Jump) : RowBits.Statement (.decD dest jump) :=
  RowBits.ofComp .decD dest jump _ rfl rfl

theorem RowBits.decA (dest : Dest) (jump : Jump) : RowBits.Statement (.decA dest jump) :=
  RowBits.ofComp .decA dest jump _ rfl rfl

theorem RowBits.addDA (dest : Dest) (jump : Jump) : RowBits.Statement (.addDA dest jump) :=
  RowBits.ofComp .addDA dest jump _ rfl rfl

theorem RowBits.subDA (dest : Dest) (jump : Jump) : RowBits.Statement (.subDA dest jump) :=
  RowBits.ofComp .subDA dest jump _ rfl rfl

theorem RowBits.subAD (dest : Dest) (jump : Jump) : RowBits.Statement (.subAD dest jump) :=
  RowBits.ofComp .subAD dest jump _ rfl rfl

theorem RowBits.andDA (dest : Dest) (jump : Jump) : RowBits.Statement (.andDA dest jump) :=
  RowBits.ofComp .andDA dest jump _ rfl rfl

theorem RowBits.orDA (dest : Dest) (jump : Jump) : RowBits.Statement (.orDA dest jump) :=
  RowBits.ofComp .orDA dest jump _ rfl rfl

theorem RowBits.passM (dest : Dest) (jump : Jump) : RowBits.Statement (.passM dest jump) :=
  RowBits.ofComp .passM dest jump _ rfl rfl

theorem RowBits.notM (dest : Dest) (jump : Jump) : RowBits.Statement (.notM dest jump) :=
  RowBits.ofComp .notM dest jump _ rfl rfl

theorem RowBits.negM (dest : Dest) (jump : Jump) : RowBits.Statement (.negM dest jump) :=
  RowBits.ofComp .negM dest jump _ rfl rfl

theorem RowBits.incM (dest : Dest) (jump : Jump) : RowBits.Statement (.incM dest jump) :=
  RowBits.ofComp .incM dest jump _ rfl rfl

theorem RowBits.decM (dest : Dest) (jump : Jump) : RowBits.Statement (.decM dest jump) :=
  RowBits.ofComp .decM dest jump _ rfl rfl

theorem RowBits.addDM (dest : Dest) (jump : Jump) : RowBits.Statement (.addDM dest jump) :=
  RowBits.ofComp .addDM dest jump _ rfl rfl

theorem RowBits.subDM (dest : Dest) (jump : Jump) : RowBits.Statement (.subDM dest jump) :=
  RowBits.ofComp .subDM dest jump _ rfl rfl

theorem RowBits.subMD (dest : Dest) (jump : Jump) : RowBits.Statement (.subMD dest jump) :=
  RowBits.ofComp .subMD dest jump _ rfl rfl

theorem RowBits.andDM (dest : Dest) (jump : Jump) : RowBits.Statement (.andDM dest jump) :=
  RowBits.ofComp .andDM dest jump _ rfl rfl

theorem RowBits.orDM (dest : Dest) (jump : Jump) : RowBits.Statement (.orDM dest jump) :=
  RowBits.ofComp .orDM dest jump _ rfl rfl

theorem RowBits.shlA (dest : Dest) (jump : Jump) : RowBits.Statement (.shlA dest jump) :=
  RowBits.ofComp .shlA dest jump _ rfl rfl

theorem RowBits.shlD (dest : Dest) (jump : Jump) : RowBits.Statement (.shlD dest jump) :=
  RowBits.ofComp .shlD dest jump _ rfl rfl

theorem RowBits.shlM (dest : Dest) (jump : Jump) : RowBits.Statement (.shlM dest jump) :=
  RowBits.ofComp .shlM dest jump _ rfl rfl

theorem RowBits.shrA (dest : Dest) (jump : Jump) : RowBits.Statement (.shrA dest jump) :=
  RowBits.ofComp .shrA dest jump _ rfl rfl

theorem RowBits.shrD (dest : Dest) (jump : Jump) : RowBits.Statement (.shrD dest jump) :=
  RowBits.ofComp .shrD dest jump _ rfl rfl

theorem RowBits.shrM (dest : Dest) (jump : Jump) : RowBits.Statement (.shrM dest jump) :=
  RowBits.ofComp .shrM dest jump _ rfl rfl

theorem RowBits.noneOp : RowBits.Statement .noneOp := by
  intro w h
  obtain rfl := Option.some.inj h
  rfl

theorem RowBits.labelOp : RowBits.Statement .labelOp := by
  intro w h
  obtain rfl := Option.some.inj h
  rfl

end Sys2Proof.Laws
end

