-- ==== Sys2Proof/Laws/Sequencer.lean ====
section
/-! SUPPORT. What one core step can do. -/

namespace Sys2Proof.Machine

/-- `Exec` on a slot always answers a next state (R221). -/
theorem execSlot_isNext (x : Slot) (s : State) : ∃ t, execSlot x s = .next t := by
  cases x with
  | instr i => exact exec_isNext i s
  | illegal w => exact ⟨_, rfl⟩

theorem checkBound_of_valid {s : State} (h : slotValid s.pc = true) : checkBound s = s := by
  simp [checkBound, h]

theorem checkBound_of_not_valid {s : State} (h : slotValid s.pc = false) :
    checkBound s = (s.setPc 32766#16).stopPcOverflow := by
  simp [checkBound, h]

section checkBound
variable (s : State)

@[simp] theorem checkBound_a : (checkBound s).a = s.a := by unfold checkBound; split <;> rfl
@[simp] theorem checkBound_d : (checkBound s).d = s.d := by unfold checkBound; split <;> rfl
@[simp] theorem checkBound_ram : (checkBound s).ram = s.ram := by unfold checkBound; split <;> rfl
@[simp] theorem checkBound_imem : (checkBound s).imem = s.imem := by unfold checkBound; split <;> rfl
@[simp] theorem checkBound_bp : (checkBound s).bp = s.bp := by unfold checkBound; split <;> rfl
@[simp] theorem checkBound_fault : (checkBound s).fault = s.fault := by unfold checkBound; split <;> rfl
@[simp] theorem checkBound_symbols : (checkBound s).symbols = s.symbols := by unfold checkBound; split <;> rfl

theorem checkBound_slotValid : slotValid (checkBound s).pc = true := by
  unfold checkBound
  split
  · assumption
  · rfl

end checkBound

section checkBreakpoints
variable (mode : StepMode) (s : State)

theorem checkBreakpoints_cases : checkBreakpoints mode s = s ∨ checkBreakpoints mode s = s.stopBreakpoint := by
  cases mode with
  | single => exact .inl rfl
  | batched =>
    unfold checkBreakpoints
    simp only
    split
    · exact .inr rfl
    · exact .inl rfl

@[simp] theorem checkBreakpoints_a : (checkBreakpoints mode s).a = s.a := by
  rcases checkBreakpoints_cases mode s with h | h <;> simp [h]
@[simp] theorem checkBreakpoints_d : (checkBreakpoints mode s).d = s.d := by
  rcases checkBreakpoints_cases mode s with h | h <;> simp [h]
@[simp] theorem checkBreakpoints_pc : (checkBreakpoints mode s).pc = s.pc := by
  rcases checkBreakpoints_cases mode s with h | h <;> simp [h]
@[simp] theorem checkBreakpoints_ram : (checkBreakpoints mode s).ram = s.ram := by
  rcases checkBreakpoints_cases mode s with h | h <;> simp [h]
@[simp] theorem checkBreakpoints_imem : (checkBreakpoints mode s).imem = s.imem := by
  rcases checkBreakpoints_cases mode s with h | h <;> simp [h]
@[simp] theorem checkBreakpoints_bp : (checkBreakpoints mode s).bp = s.bp := by
  rcases checkBreakpoints_cases mode s with h | h <;> simp [h]
@[simp] theorem checkBreakpoints_fault : (checkBreakpoints mode s).fault = s.fault := by
  rcases checkBreakpoints_cases mode s with h | h <;> simp [h]
@[simp] theorem checkBreakpoints_symbols : (checkBreakpoints mode s).symbols = s.symbols := by
  rcases checkBreakpoints_cases mode s with h | h <;> simp [h]

end checkBreakpoints

section afterExec
variable (mode : StepMode) (s : State)

@[simp] theorem afterExec_a : (afterExec mode s).a = s.a := by unfold afterExec; split <;> simp
@[simp] theorem afterExec_d : (afterExec mode s).d = s.d := by unfold afterExec; split <;> simp
@[simp] theorem afterExec_ram : (afterExec mode s).ram = s.ram := by unfold afterExec; split <;> simp
@[simp] theorem afterExec_imem : (afterExec mode s).imem = s.imem := by unfold afterExec; split <;> simp
@[simp] theorem afterExec_bp : (afterExec mode s).bp = s.bp := by unfold afterExec; split <;> simp
@[simp] theorem afterExec_fault : (afterExec mode s).fault = s.fault := by unfold afterExec; split <;> simp
@[simp] theorem afterExec_symbols : (afterExec mode s).symbols = s.symbols := by unfold afterExec; split <;> simp

end afterExec

/-- The three ways a core step ends: the core is halted, pc is no slot, or the fetched slot was executed and
the checks made. -/
theorem coreStep_cases (mode : StepMode) (s : State) :
    (s.fault ≠ .noFault ∧ coreStep mode s = .fault (.halted s.fault)) ∨
    (s.fault = .noFault ∧ slotValid s.pc = false ∧ coreStep mode s = .fault (.pcOutOfRange s.pc)) ∨
    (s.fault = .noFault ∧ slotValid s.pc = true ∧
      ∃ t, execSlot (fetch s) s = .next t ∧ coreStep mode s = .next (afterExec mode t)) := by
  obtain ⟨t, ht⟩ := execSlot_isNext (fetch s) s
  by_cases hf : s.fault = .noFault
  · have hf' : s.faulted = false := by simp [hf]
    cases hp : slotValid s.pc with
    | false => exact .inr (.inl ⟨hf, rfl, by simp [coreStep, hf', hp]⟩)
    | true => exact .inr (.inr ⟨hf, rfl, t, ht, by simp [coreStep, hf', hp, ht]⟩)
  · exact .inl ⟨hf, by simp [coreStep, hf]⟩

/-- `step` is a core step of a batch from the state with `stopped` cleared. -/
theorem step_eq (s : State) : step s = coreStep .batched s.clearStopped := rfl

@[simp] theorem placeWord_pc (w : Word) (s : State) : (placeWord w s).pc = s.pc := by
  unfold placeWord; split <;> rfl

@[simp] theorem placeWord_fault (w : Word) (s : State) : (placeWord w s).fault = s.fault := by
  unfold placeWord; split <;> rfl

/-- The word placed is the one fetched, decoded. -/
theorem fetch_placeWord (w : Word) {s : State} (h : slotValid s.pc = true) : fetch (placeWord w s) = decode w := by
  simp [fetch, placeWord, h]

end Sys2Proof.Machine
end

