-- ==== Sys2Proof/Laws/Tables.lean ====
section
/-! SUPPORT. The breakpoint set's order and the symbol table's form. -/

namespace Sys2Proof.Machine

/-- Distinct predicates have distinct numbers, so the set has one order (R31). -/
theorem Breakpoint.key_inj {b c : Breakpoint} (h : b.key = c.key) : b = c := by
  have e : ∀ {x y : Word}, x.toNat = y.toNat → x = y := fun h => BitVec.eq_of_toNat_eq h
  cases b with
  | A x =>
    have := x.isLt
    cases c with
    | A y => simp only [Breakpoint.key] at h; rw [e h]
    | D y => simp only [Breakpoint.key] at h; omega
    | PC y => simp only [Breakpoint.key] at h; omega
    | RAM y z => simp only [Breakpoint.key] at h; omega
  | D x =>
    have := x.isLt
    cases c with
    | A y => have := y.isLt; simp only [Breakpoint.key] at h; omega
    | D y => simp only [Breakpoint.key] at h; have h1 : x = y := e (by omega); rw [h1]
    | PC y => simp only [Breakpoint.key] at h; omega
    | RAM y z => simp only [Breakpoint.key] at h; omega
  | PC x =>
    have := x.isLt
    cases c with
    | A y => have := y.isLt; simp only [Breakpoint.key] at h; omega
    | D y => have := y.isLt; simp only [Breakpoint.key] at h; omega
    | PC y => simp only [Breakpoint.key] at h; have h1 : x = y := e (by omega); rw [h1]
    | RAM y z => simp only [Breakpoint.key] at h; omega
  | RAM x w =>
    have := x.isLt
    have := w.isLt
    cases c with
    | A y => have := y.isLt; simp only [Breakpoint.key] at h; omega
    | D y => have := y.isLt; simp only [Breakpoint.key] at h; omega
    | PC y => have := y.isLt; simp only [Breakpoint.key] at h; omega
    | RAM y z => have := y.isLt; have := z.isLt; simp only [Breakpoint.key] at h
                 have h1 : x = y := e (by omega)
                 have h2 : w = z := e (by omega)
                 rw [h1, h2]

/-- Removal keeps the form of the set (R243). -/
theorem breakpointsWf_remove {bp : List Breakpoint} (h : breakpointsWf bp = true) (b : Breakpoint) :
    breakpointsWf (removeBreakpoint b bp) = true := by
  simp only [breakpointsWf, decide_eq_true_eq] at h ⊢
  exact h.filter _

/-- Binding a new name keeps the names distinct (N22). -/
theorem SymbolTable.wf_bind {t : SymbolTable} (ht : SymbolTable.wf t = true) {name : Text} (addr : Word)
    (h : (t.lookup name).isSome = false) : SymbolTable.wf (t.bind name addr) = true := by
  rw [SymbolTable.wf, decide_eq_true_eq] at ht
  rw [SymbolTable.wf, decide_eq_true_eq, SymbolTable.bind, List.pairwise_append]
  refine ⟨ht, by simp, ?_⟩
  intro e he f hf
  simp at hf; subst hf
  intro hn
  have hs : (t.entries.find? fun e => e.1 == name).isSome = true := by
    rw [List.find?_isSome]; exact ⟨e, he, by simpa using hn⟩
  simp [SymbolTable.lookup, hs] at h

@[simp] theorem SymbolTable.wf_fresh : SymbolTable.wf .fresh = true := by decide

end Sys2Proof.Machine
end

