-- ==== Sys2Proof/Tests/Slice0.lean ====
section
/-! SUPPORT. The model's own tests.  Every expected result is copied from spec/95_test_vectors.md, from a
worked example of a rule, or from the tables of 30_encoding.md; none is the model's own answer. -/

namespace Sys2Proof.Machine.Tests

/-! ### Well-formedness: an ill-formed term for each check -/

/-- `A(0xFFFF)` is typed only: no word encodes it (R86, T5). -/
theorem test_wf_refuses_wide_constant : Instr.wf (.atValue 0xFFFF#16) = false := by decide

theorem test_wf_accepts_largest_constant : Instr.wf (.atValue 0x7FFF#16) = true := by decide

/-- 32768 instructions do not fit 32767 slots (R105, R121). -/
theorem test_program_too_long (prog : List Instr) (h : prog.length = 32768) : programFits prog = false := by
  rw [programFits, h]; rfl

/-- An entry equal to what an unlisted address holds, a repeated address, an address that does not exist. -/
theorem test_memory_wf_refuses :
    Memory.wf [(3, 0#16)] = false ∧ Memory.wf [(3, 1#16), (3, 2#16)] = false ∧
      Memory.wf [(5, 1#16), (3, 2#16)] = false ∧ Memory.wf [(24577, 1#16)] = false ∧
      InstrMemory.wf [(32767, .instr .labelOp)] = false ∧ InstrMemory.wf [(0, .instr .noneOp)] = false := by decide

theorem test_breakpoints_wf_refuses : breakpointsWf [.D 0#16, .A 5#16] = false := by decide

theorem test_symbols_wf_refuses : SymbolTable.wf ⟨[(['x'], 1#16), (['x'], 2#16)], 16#16⟩ = false := by decide

/-! ### Parameters (R7, R8) -/

theorem test_parameters_consistent :
    Config.screenBase + Config.screenWords = Config.kbdAddr ∧ Config.kbdAddr + 1 = Config.ramWords ∧
      Config.imemSlots = 2 ^ 15 - 1 ∧ Config.xlen = 16 ∧ Config.pclen = 16 ∧ Config.batch = 100000 ∧
      Config.varBase = 16 ∧ Config.decQuirk = true ∧ Config.asmDestLookupQuirk = false := by decide

/-! ### Decoding: a word for every constructor, written from R85 to R94 -/

/-- Whether each word decodes to its instruction and is the instruction's word. -/
def decodesTo (l : List (Word × Instr)) : Bool :=
  l.all fun x => decode x.1 == .instr x.2 && encode x.2 == some x.1

/-- Class `111`, `a = 0` (R88), with every `ddd` and `jjj` among them. -/
theorem test_decode_classic :
  decodesTo (
   [
    (0b1110101010001010#16, .zero .m .jeq),
    (0b1110111111100111#16, .one .a .jmp),
    (0b1110111010111100#16, .minusOne .amd .jlt),
    (0b1110001100010001#16, .passD .d .jgt),
    (0b1110110000101110#16, .passA .am .jle),
    (0b1110001101000011#16, .notD .noDest .jge),
    (0b1110110001011000#16, .notA .md .noJump),
    (0b1110001111110101#16, .negD .ad .jne),
    (0b1110110011001010#16, .negA .m .jeq)] ++
   [
    (0b1110011111100111#16, .incD .a .jmp),
    (0b1110110111111100#16, .incA .amd .jlt),
    (0b1110001110010001#16, .decD .d .jgt),
    (0b1110110010101110#16, .decA .am .jle),
    (0b1110000010000011#16, .addDA .noDest .jge),
    (0b1110010011011000#16, .subDA .md .noJump),
    (0b1110000111110101#16, .subAD .ad .jne),
    (0b1110000000001010#16, .andDA .m .jeq),
    (0b1110010101100111#16, .orDA .a .jmp)]) = true := by decide

/-- Class `111`, `a = 1` (R89). -/
theorem test_decode_memory :
  decodesTo (
   [
    (0b1111110000111100#16, .passM .amd .jlt),
    (0b1111110001010001#16, .notM .d .jgt),
    (0b1111110011101110#16, .negM .am .jle),
    (0b1111110111000011#16, .incM .noDest .jge),
    (0b1111110010011000#16, .decM .md .noJump),
    (0b1111000010110101#16, .addDM .ad .jne),
    (0b1111010011001010#16, .subDM .m .jeq),
    (0b1111000111100111#16, .subMD .a .jmp),
    (0b1111000000111100#16, .andDM .amd .jlt)] ++
   [
    (0b1111010101010001#16, .orDM .d .jgt)]) = true := by decide

/-- Class `101` (R90). -/
theorem test_decode_shift :
  decodesTo (
   [
    (0b1010100000101110#16, .shlA .am .jle),
    (0b1010110000000011#16, .shlD .noDest .jge),
    (0b1011100000011000#16, .shlM .md .noJump),
    (0b1010000000110101#16, .shrA .ad .jne),
    (0b1010010000001010#16, .shrD .m .jeq),
    (0b1011000000100111#16, .shrM .a .jmp)]) = true := by decide

/-- The A-format (R86) and the two code points (R94). -/
theorem test_decode_plain :
    decodesTo [(0b0000000000000000#16, .atValue 0#16), (0b0111111111111111#16, .atValue 32767#16),
      (0b1000000000000000#16, .noneOp), (0b1000000000000001#16, .labelOp)] = true := by decide

/-- The illegal words of table T8. -/
theorem test_decode_illegal :
    [0x8002#16, 0x9000#16, 0xC000#16, 0xE040#16, 0xFFC0#16, 0xFFFF#16, 0xA840#16, 0xBC00#16].all
      (fun w => decode w == .illegal w) = true := by decide

/-- The worked words of R126 and T4. -/
theorem test_encode_examples :
    encode (.passA .d .noJump) = some 0xEC10#16 ∧ encode (.addDA .d .noJump) = some 0xE090#16 ∧
      encode (.passD .m .noJump) = some 0xE308#16 ∧ encode (.zero .noDest .jmp) = some 0xEA87#16 ∧
      encode (.shlD .d .noJump) = some 0xAC10#16 ∧ encode (.incM .md .noJump) = some 0xFDD8#16 ∧
      encode (.incD .amd .noJump) = some 0xE7F8#16 ∧ encode (.atValue 0xFFFF#16) = none := by decide

/-! ### The ALU: table T1, the operand triples S2 to S5 -/

/-- The ALU outputs on the triples S2 to S5 of T1, as `(A, D, M)`. -/
def aluRow (quirk : Bool) (c : Comp) : List Word :=
  [alu quirk c 0x0001#16 0xFFFF#16 0x7FFF#16, alu quirk c 0x7FFF#16 0x0001#16 0x8000#16,
   alu quirk c 0x8000#16 0x8000#16 0xFFFF#16, alu quirk c 0x1234#16 0x00FF#16 0xF0F0#16]

/-- T1, the constants, passes, complements and negations. -/
theorem test_alu_classic_pass :
    aluRow true .zero = [0x0000#16, 0x0000#16, 0x0000#16, 0x0000#16] ∧
    aluRow true .one = [0x0001#16, 0x0001#16, 0x0001#16, 0x0001#16] ∧
    aluRow true .minusOne = [0xFFFF#16, 0xFFFF#16, 0xFFFF#16, 0xFFFF#16] ∧
    aluRow true .passD = [0xFFFF#16, 0x0001#16, 0x8000#16, 0x00FF#16] ∧
    aluRow true .passA = [0x0001#16, 0x7FFF#16, 0x8000#16, 0x1234#16] ∧
    aluRow true .notD = [0x0000#16, 0xFFFE#16, 0x7FFF#16, 0xFF00#16] ∧
    aluRow true .notA = [0xFFFE#16, 0x8000#16, 0x7FFF#16, 0xEDCB#16] ∧
    aluRow true .negD = [0x0001#16, 0xFFFF#16, 0x8000#16, 0xFF01#16] ∧
    aluRow true .negA = [0xFFFF#16, 0x8001#16, 0x8000#16, 0xEDCC#16] := by decide

/-- T1, increments, decrements with both values of `DEC_QUIRK`, sums, AND, OR. -/
theorem test_alu_classic_arithmetic :
    aluRow true .incD = [0x0000#16, 0x0002#16, 0x8001#16, 0x0100#16] ∧
    aluRow true .incA = [0x0002#16, 0x8000#16, 0x8001#16, 0x1235#16] ∧
    aluRow true .decD = [0x0000#16, 0x0002#16, 0x8001#16, 0x0100#16] ∧
    aluRow false .decD = [0xFFFE#16, 0x0000#16, 0x7FFF#16, 0x00FE#16] ∧
    aluRow true .decA = [0x0002#16, 0x8000#16, 0x8001#16, 0x1235#16] ∧
    aluRow false .decA = [0x0000#16, 0x7FFE#16, 0x7FFF#16, 0x1233#16] ∧
    aluRow true .addDA = [0x0000#16, 0x8000#16, 0x0000#16, 0x1333#16] ∧
    aluRow true .subDA = [0xFFFE#16, 0x8002#16, 0x0000#16, 0xEECB#16] ∧
    aluRow true .subAD = [0x0002#16, 0x7FFE#16, 0x0000#16, 0x1135#16] ∧
    aluRow true .andDA = [0x0001#16, 0x0001#16, 0x8000#16, 0x0034#16] ∧
    aluRow true .orDA = [0xFFFF#16, 0x7FFF#16, 0x8000#16, 0x12FF#16] := by decide

/-- T1, the memory mirrors. -/
theorem test_alu_memory :
    aluRow true .passM = [0x7FFF#16, 0x8000#16, 0xFFFF#16, 0xF0F0#16] ∧
    aluRow true .notM = [0x8000#16, 0x7FFF#16, 0x0000#16, 0x0F0F#16] ∧
    aluRow true .negM = [0x8001#16, 0x8000#16, 0x0001#16, 0x0F10#16] ∧
    aluRow true .incM = [0x8000#16, 0x8001#16, 0x0000#16, 0xF0F1#16] ∧
    aluRow true .decM = [0x7FFE#16, 0x7FFF#16, 0xFFFE#16, 0xF0EF#16] ∧
    aluRow true .addDM = [0x7FFE#16, 0x8001#16, 0x7FFF#16, 0xF1EF#16] ∧
    aluRow true .subDM = [0x8000#16, 0x8001#16, 0x8001#16, 0x100F#16] ∧
    aluRow true .subMD = [0x8000#16, 0x7FFF#16, 0x7FFF#16, 0xEFF1#16] ∧
    aluRow true .andDM = [0x7FFF#16, 0x0000#16, 0x8000#16, 0x00F0#16] ∧
    aluRow true .orDM = [0xFFFF#16, 0x8001#16, 0xFFFF#16, 0xF0FF#16] := by decide

/-- T1, the shifts. -/
theorem test_alu_shift :
    aluRow true .shlA = [0x0002#16, 0xFFFE#16, 0x0000#16, 0x2468#16] ∧
    aluRow true .shlD = [0xFFFE#16, 0x0002#16, 0x0000#16, 0x01FE#16] ∧
    aluRow true .shlM = [0xFFFE#16, 0x0000#16, 0xFFFE#16, 0xE1E0#16] ∧
    aluRow true .shrA = [0x0000#16, 0x3FFF#16, 0x4000#16, 0x091A#16] ∧
    aluRow true .shrD = [0x7FFF#16, 0x0000#16, 0x4000#16, 0x007F#16] ∧
    aluRow true .shrM = [0x3FFF#16, 0x4000#16, 0x7FFF#16, 0x7878#16] := by decide

/-- T2: the jump conditions on `0x8000`, `0xFFFF`, `0x0000`, `0x0001`, `0x7FFF`. -/
def condRow (j : Jump) : List Bool :=
  [0x8000#16, 0xFFFF#16, 0x0000#16, 0x0001#16, 0x7FFF#16].map (jumpCond j)

theorem test_jump_conditions :
    condRow .noJump = [false, false, false, false, false] ∧
    condRow .jgt = [false, false, false, true, true] ∧
    condRow .jeq = [false, false, true, false, false] ∧
    condRow .jge = [false, false, true, true, true] ∧
    condRow .jlt = [true, true, false, false, false] ∧
    condRow .jne = [true, true, false, true, true] ∧
    condRow .jle = [true, true, true, false, false] ∧
    condRow .jmp = [true, true, true, true, true] := by decide

/-! ### Steps: tables T3 to T6 -/

/-- A state with the given registers, RAM and one instruction word where the machine fetches. -/
def at_ (a d pc : Word) (ram : Memory) (word : Nat) : State :=
  { State.reset with a := a, d := d, pc := pc, ram := ram }.withFetchWord 16 word

/-- What the tables list of the state after one step. -/
structure Seen where
  a : Word
  d : Word
  pc : Word
  ram : Memory
  fault : FaultLatch
  stopped : StopReasons
  deriving DecidableEq, Repr

/-- The columns of the tables after one step, or nothing where the machine makes none. -/
def after (s : State) : Option Seen :=
  match step s with
  | .next t => some ⟨t.a, t.d, t.pc, t.ram, t.fault, t.stopped⟩
  | .fault _ => none
  | .refused _ => none

/-- A step that stops nothing and raises nothing. -/
def ran (a d pc : Word) (ram : Memory) : Option Seen := some ⟨a, d, pc, ram, .noFault, .empty⟩

/-- T3: the target is the A the instruction leaves. -/
theorem test_jump_target :
    after (at_ 3#16 0#16 1#16 [] 0xEA87) = ran 3#16 0#16 3#16 [] ∧
    after (at_ 32766#16 6#16 100#16 [] 0xEC17) = ran 32766#16 0x7FFE#16 32766#16 [] ∧
    after (at_ 100#16 7#16 3#16 [] 0xE327) = ran 7#16 7#16 7#16 [] ∧
    after (at_ 5#16 0#16 3#16 [(5, 9#16)] 0xFCA9) = ran 8#16 0#16 8#16 [(5, 8#16)] ∧
    after (at_ 5#16 0#16 3#16 [(5, 0xFFFF#16)] 0xFDCF) = ran 5#16 0#16 5#16 [] ∧
    after (at_ 30000#16 1#16 10#16 [] 0xE301) = ran 30000#16 1#16 30000#16 [] := by decide

/-- T2's two rows: the tested value is the result, and the new A is the target. -/
theorem test_jump_tests_result :
    after (at_ 100#16 0xFFFF#16 3#16 [] 0xE7E1) = ran 0#16 0xFFFF#16 4#16 [] ∧
    after (at_ 100#16 0xFFFF#16 3#16 [] 0xE7E2) = ran 0#16 0xFFFF#16 0#16 [] := by decide

/-- T3 and T5: an out-of-range target, and running off slot 32766, clamp and stop. -/
theorem test_pc_overflow :
    after (at_ 40000#16 0#16 10#16 [] 0xEA87) = some ⟨40000#16, 0#16, 32766#16, [], .noFault, ⟨true, false⟩⟩ ∧
    after (at_ 32767#16 0#16 100#16 [] 0xEC17) =
      some ⟨32767#16, 0x7FFF#16, 32766#16, [], .noFault, ⟨true, false⟩⟩ ∧
    after (at_ 5#16 6#16 32766#16 [] 0x8000) = some ⟨5#16, 6#16, 32766#16, [], .noFault, ⟨true, false⟩⟩ ∧
    after (at_ 5#16 0#16 32766#16 [] 0x004D) = some ⟨0x004D#16, 0#16, 32766#16, [], .noFault, ⟨true, false⟩⟩ := by
  decide

/-- T4: the eight destinations of `D+1`. -/
theorem test_destinations :
    after (at_ 16#16 4#16 7#16 [(16, 9#16)] 0xE7C0) = ran 16#16 4#16 8#16 [(16, 9#16)] ∧
    after (at_ 16#16 4#16 7#16 [(16, 9#16)] 0xE7C8) = ran 16#16 4#16 8#16 [(16, 5#16)] ∧
    after (at_ 16#16 4#16 7#16 [(16, 9#16)] 0xE7D0) = ran 16#16 5#16 8#16 [(16, 9#16)] ∧
    after (at_ 16#16 4#16 7#16 [(16, 9#16)] 0xE7D8) = ran 16#16 5#16 8#16 [(16, 5#16)] ∧
    after (at_ 16#16 4#16 7#16 [(16, 9#16)] 0xE7E0) = ran 5#16 4#16 8#16 [(16, 9#16)] ∧
    after (at_ 16#16 4#16 7#16 [(16, 9#16)] 0xE7E8) = ran 5#16 4#16 8#16 [(16, 5#16)] ∧
    after (at_ 16#16 4#16 7#16 [(16, 9#16)] 0xE7F0) = ran 5#16 5#16 8#16 [(16, 9#16)] ∧
    after (at_ 16#16 4#16 7#16 [(16, 9#16)] 0xE7F8) = ran 5#16 5#16 8#16 [(16, 5#16)] := by decide

/-- T5: load A, `NONE`, `LABEL`; the typed-only `A(0xFFFF)`. -/
theorem test_plain :
    after (at_ 0x1234#16 9#16 4#16 [] 0x0000) = ran 0#16 9#16 5#16 [] ∧
    after (at_ 0#16 0#16 0#16 [] 0x7FFF) = ran 0x7FFF#16 0#16 1#16 [] ∧
    after (at_ 5#16 6#16 9#16 [] 0x8000) = ran 5#16 6#16 10#16 [] ∧
    after (at_ 5#16 6#16 9#16 [] 0x8001) = ran 5#16 6#16 10#16 [] ∧
    after { State.reset with imem := [(0, .instr (.atValue 0xFFFF#16))] } = ran 0xFFFF#16 0#16 1#16 [] := by decide

/-- T6, the faults: nothing but the latch changes. -/
theorem test_mem_fault :
    after (at_ 24577#16 3#16 10#16 [] 0xFC10) = some ⟨24577#16, 3#16, 10#16, [], .memFault 0x6001#16, .empty⟩ ∧
    after (at_ 0xFFFF#16 0#16 10#16 [] 0xEA88) = some ⟨0xFFFF#16, 0#16, 10#16, [], .memFault 0xFFFF#16, .empty⟩ ∧
    after (at_ 0x7FFF#16 0#16 10#16 [] 0xFC20) = some ⟨0x7FFF#16, 0#16, 10#16, [], .memFault 0x7FFF#16, .empty⟩ ∧
    after (at_ 24577#16 1#16 10#16 [] 0xE7E8) = some ⟨24577#16, 1#16, 10#16, [], .memFault 0x6001#16, .empty⟩ ∧
    after (at_ 30000#16 0#16 10#16 [] 0xFC07) = some ⟨30000#16, 0#16, 10#16, [], .memFault 0x7530#16, .empty⟩ := by
  decide

/-- T6, the rows that do not fault: the last address, and A out of range where M is not named. -/
theorem test_memory_access :
    after (at_ 24576#16 3#16 10#16 [(24576, 0x41#16)] 0xFC10) = ran 24576#16 0x41#16 11#16 [(24576, 0x41#16)] ∧
    after (at_ 0x8000#16 0#16 10#16 [] 0xEC10) = ran 0x8000#16 0x8000#16 11#16 [] ∧
    after (at_ 24576#16 0#16 10#16 [] 0xEDF0) = ran 0x6001#16 0x6001#16 11#16 [] ∧
    after (at_ 24576#16 0x7B#16 10#16 [] 0xE308) = ran 24576#16 0x7B#16 11#16 [(24576, 0x7B#16)] ∧
    after (at_ 16384#16 0#16 10#16 [] 0xEE88) = ran 16384#16 0#16 11#16 [(16384, 0xFFFF#16)] ∧
    after (at_ 0xFFFF#16 1#16 10#16 [] 0xE090) = ran 0xFFFF#16 0#16 11#16 [] := by decide

/-- R231: an illegal word that reaches execution; a core with the latch set has no step (R35). -/
theorem test_illegal_and_halted :
    after (at_ 1#16 2#16 10#16 [] 0xC000) = some ⟨1#16, 2#16, 10#16, [], .illegalInstruction 0xC000#16, .empty⟩ ∧
    after { State.reset with fault := .memFault 1#16 } = none := by decide

/-! ### Breakpoints and single step: S9, T7 -/

/-- T7's second batch under `A(3)`: the set is checked after the instruction, on the state it leaves. -/
theorem test_breakpoint_value :
    after { at_ 3#16 2#16 3#16 [] 0xE090 with bp := [.A 3#16] } =
      some ⟨3#16, 5#16, 4#16, [], .noFault, ⟨false, true⟩⟩ := by decide

/-- T7: both stops at once. -/
theorem test_both_stops :
    after { at_ 0#16 0#16 32766#16 [] 0x8000 with bp := [.PC 32766#16] } =
      some ⟨0#16, 0#16, 32766#16, [], .noFault, ⟨true, true⟩⟩ := by decide

/-- T7: `PC(1)` does not stop a single step. -/
theorem test_single_step_ignores_breakpoints :
    (singleStep { at_ 0#16 0#16 0#16 [] 0x0002 with bp := [.PC 1#16] }).stopped = .empty ∧
    (singleStep { at_ 0#16 0#16 0#16 [] 0x0002 with bp := [.PC 1#16] }).pc = 1#16 := by decide

/-! ### The assembler: T9, S8, S11 -/

/-- The words a text assembles to, or nothing where it is refused. -/
def words (lines : List String) : Option (List Word) :=
  match assemble (lines.map String.toList) with
  | .ok (prog, _) => prog.mapM encode
  | .error _ => none

theorem test_assemble_lines :
    words ["  @  2 // two", "D = D + A", "D=D+1;JGT", "D", "M=M>>", "@SCREEN", "@70000"] =
      some [0x0002#16, 0xE090#16, 0xE7D1#16, 0xE300#16, 0xB008#16, 0x4000#16, 0x0010#16] := by decide

theorem test_assemble_refuses :
    words ["D=A+D"] = none ∧ words ["DM=1"] = none ∧ words ["D=2"] = none ∧ words ["D=1;JXX"] = none ∧
      words ["@32768"] = none ∧ words ["@"] = none ∧ words ["(L)", "D=1", "(L)"] = none ∧
      words ["(R0)", "D=1"] = none := by decide

theorem test_assemble_labels :
    words ["(A)", "(B)", "@A", "@B", "D=1"] = some [0x0000#16, 0x0000#16, 0xEFD0#16] ∧
      words ["@x", "(x)", "D=1"] = some [0x0001#16, 0xEFD0#16] ∧
      words ["@LAST", "D=1", "(LAST)"] = some [0x0002#16, 0xEFD0#16] := by decide

/-- R109: an operand already bound is left alone, so a label `(1)` captures `@1` (log 31). -/
theorem test_numeric_label : words ["D=1", "D=1", "D=1", "(1)", "@1"] = some [0xEFD0#16, 0xEFD0#16, 0xEFD0#16, 0x0003#16] := by
  decide

/-- S11: with the option on, the line is `InvalidLine`. -/
theorem test_dest_lookup_quirk :
    assembleWith true ["D=D+1;JGT".toList] = .error (.invalidLine 0 "D=D+1;JGT".toList) := by decide

/-- R124: the canonical texts of the words of T8. -/
theorem test_canonical_text :
    instrText (.one .amd .jmp) = some "AMD=1;JMP".toList ∧ instrText (.atValue 24576#16) = some "@24576".toList ∧
      instrText (.shrA .noDest .noJump) = some "A>>".toList ∧ instrText .noneOp = none := by decide

/-! ### The host -/

/-- R97: an image with an illegal word is refused as a whole. -/
theorem test_load_words :
    loadWords [0x0002#16, 0xC000#16] .reset = none ∧
      (loadWords [0x8000#16, 0xEC10#16] .reset).map (fun t => t.imem) =
        some [(1, .instr (.passA .d .noJump))] := by decide

/-- S9's edits: insertion twice is insertion once, removal takes the predicate out (R243). -/
theorem test_breakpoint_edits :
    insertBreakpoint (.PC 5#16) (insertBreakpoint (.PC 5#16) [.A 3#16]) = [.A 3#16, .PC 5#16] ∧
      removeBreakpoint (.PC 5#16) [.A 3#16, .PC 5#16] = [.A 3#16] := by decide

/-! ### Witnesses: for each statement with hypotheses, values that meet all of them together

Where a statement has clauses over a range, the boundary values of each clause. -/

/-- The reset state with the given A and D. -/
def regs (a d : Word) : State := { State.reset with a := a, d := d }

/-- A legal word, and the two ends of the A-format. -/
theorem witness_EncodeOfDecode : decode 0xE7F8#16 = .instr (.incD .amd .noJump) := by decide

theorem witness_DecodeOfEncode : Instr.wf (.atValue 32767#16) = true ∧ Instr.wf (.atValue 32768#16) = false := by
  decide

theorem witness_IllegalWordsAreThoseListed : decode 0xC000#16 = .illegal 0xC000#16 := by decide

theorem witness_AddressWordZeroExtends :
    (0x0000#16).getLsbD 15 = false ∧ (0x7FFF#16).getLsbD 15 = false := by decide

/-- For the statements `ConstantAndPassCompsResult` and `Register…Result`, `RegisterDecrementAddsOne`: a
destination with M at the last data address, and one without M at any A. -/
theorem witness_register_results : Reaches false .amd (regs 24576#16 5#16) ∧ Reaches false .ad (regs 0xFFFF#16 5#16) := by
  simp [Reaches, regs, toM]

/-- For the statements `Memory…Result`: the last data address, and not the next one. -/
theorem witness_memory_results : Reaches true .ad (regs 24576#16 5#16) ∧ ¬ Reaches true .ad (regs 24577#16 5#16) := by
  simp [Reaches, regs]

theorem witness_DecrementForBothQuirks : Comp.decM ≠ .decD ∧ Comp.decM ≠ .decA ∧ Reaches false .d (regs 0xFFFF#16 0#16) := by
  simp [Reaches, toM]

/-- For `DestinationStoresResult` and `StoreWithNewAUsesOldAddress`, both clauses of a destination with M: the
last address that exists, and the first that does not. -/
theorem witness_StoresTo :
    Reaches (readsM .incD) .noDest (regs 24576#16 4#16) ∧ (regs 24576#16 4#16).a.u16 ≤ 24576 ∧
      Reaches (readsM .incD) .noDest (regs 24577#16 4#16) ∧ 24576 < (regs 24577#16 4#16).a.u16 := by
  simp [Reaches, readsM, toM, regs]

/-- Results at the boundaries of the jump ranges (R203 to R208). -/
theorem witness_JumpsTakenByResultRange :
    [0x0000#16, 0x0001#16, 0x7FFF#16, 0x8000#16, 0xFFFF#16].map (fun d => (result Config.decQuirk .passD (regs 3#16 d)).u16) =
      [0, 1, 32767, 32768, 65535] ∧ Reaches (readsM .passD) .noDest (regs 3#16 0#16) := by
  simp [Reaches, readsM, toM, result, alu, regs]

theorem witness_JumpTargetIsCurrentA :
    Reaches (readsM .decM) .am { regs 5#16 0#16 with ram := [(5, 9#16)] } ∧
      jumpCond .jgt (result Config.decQuirk .decM { regs 5#16 0#16 with ram := [(5, 9#16)] }) = true ∧
      jumpCond .jlt (result Config.decQuirk .decM { regs 5#16 0#16 with ram := [(5, 9#16)] }) = false := by
  refine ⟨by simp [Reaches, regs], by decide, by decide⟩

theorem witness_MemFaultIsPrecise :
    (readsM .passM = true ∨ toM .d = true) ∧ 24576 < (regs 24577#16 3#16).a.u16 := by decide

theorem witness_FaultOnlyFromBadDataAddress :
    ∃ t, exec (.passM .d .noJump) (regs 24577#16 3#16) = .next t ∧ t.fault ≠ (regs 24577#16 3#16).fault :=
  ⟨_, rfl, by decide⟩

theorem witness_InstructionsFrame :
    ∃ t, exec (.incM .md .noJump) (regs 24576#16 3#16) = .next t ∧ t.ram ≠ (regs 24576#16 3#16).ram ∧ t.d ≠ 3#16 :=
  ⟨_, rfl, by decide, by decide⟩

/-- Two states that agree where the cycle looks and differ elsewhere. -/
theorem witness_OutcomeDependsOnSampledState :
    let s := { regs 5#16 2#16 with ram := [(5, 9#16)] }
    let s' := { regs 5#16 2#16 with ram := [(5, 9#16), (6, 1#16)], bp := [.A 1#16] }
    s.a = s'.a ∧ s.d = s'.d ∧ s.pc = s'.pc ∧ mOld s = mOld s' ∧
      (∃ t, exec (.addDM .amd .jmp) s = .next t) ∧ ∃ t, exec (.addDM .amd .jmp) s' = .next t :=
  ⟨rfl, rfl, rfl, rfl, ⟨_, rfl⟩, ⟨_, rfl⟩⟩

theorem witness_NoDependenceOnRamWithoutM : readsM .incD = false ∧ Reaches false .amd (regs 16#16 4#16) := by
  simp [Reaches, regs, readsM]

theorem witness_MemReadMemWrite :
    Word.u16 24576#16 ≤ 24576 ∧ 24576 < Word.u16 24577#16 ∧ (regs 24576#16 0#16).a.u16 ≤ 24576 := by decide

theorem witness_MemoryEqualIfReadsEqual : Memory.wf [(3, 1#16), (24576, 2#16)] = true := by decide

/-- A step that faults and one that retires. -/
theorem witness_StepRunsFetchedInstruction :
    fetch (at_ 5#16 6#16 32766#16 [] 0xE7D0) = .instr (.incD .d .noJump) ∧
      (at_ 5#16 6#16 32766#16 [] 0xE7D0).fault = .noFault ∧ (at_ 5#16 6#16 32766#16 [] 0xE7D0).pc.u16 ≤ 32766 ∧
      fetch (at_ 24577#16 3#16 10#16 [] 0xFC10) = .instr (.passM .d .noJump) := by decide

theorem witness_PlacedWordIsFetched :
    0xE7D0 < 65536 ∧ Word.u16 32766#16 ≤ 32766 ∧ decode (BitVec.ofNat 16 0xE7D0) = .instr (.incD .d .noJump) := by decide

theorem witness_IllegalWordRaises :
    fetch (at_ 1#16 2#16 32766#16 [] 0xC000) = .illegal 0xC000#16 ∧
      (at_ 1#16 2#16 32766#16 [] 0xC000).fault = .noFault ∧ (at_ 1#16 2#16 32766#16 [] 0xC000).pc.u16 ≤ 32766 := by
  decide

/-- One state for each clause: it steps, it is latched, its pc is no slot. -/
theorem witness_StepExistsExactlyWhenRunnable :
    (State.reset.fault = .noFault ∧ Word.u16 32766#16 ≤ 32766) ∧
      ({ State.reset with fault := .memFault 1#16 } : State).fault ≠ .noFault ∧ 32767 ≤ Word.u16 32767#16 := by decide

/-- `NONE` in the last slot: pc becomes 32767; `NONE` before it: pc becomes 32766. -/
theorem witness_PcOverflowClampsAndStops :
    (∃ t, exec .noneOp { State.reset with pc := 32766#16 } = .next t ∧ t.fault = .noFault ∧ 32767 ≤ t.pc.u16) ∧
      ∃ t, exec .noneOp { State.reset with pc := 32765#16 } = .next t ∧ t.fault = .noFault ∧ t.pc.u16 < 32767 :=
  ⟨⟨_, rfl, by decide, by decide⟩, ⟨_, rfl, by decide, by decide⟩⟩

theorem witness_PcBreakpointStopsAtTarget :
    (∃ u, step { State.reset with bp := [.PC 1#16] } = .next u ∧ u.fault = .noFault ∧ u.pc = 1#16 ∧
      u.stopped.breakpoint = true) ∧
      ∃ u, step { State.reset with bp := [.PC 32767#16], pc := 32766#16 } = .next u ∧ u.fault = .noFault :=
  ⟨⟨_, rfl, by decide, by decide, by decide⟩, ⟨_, rfl, by decide⟩⟩

theorem witness_BreakpointsDoNotCompute : ∃ u, step { State.reset with bp := [.A 0#16] } = .next u := ⟨_, rfl⟩

theorem witness_SingleStepSkipsBreakpoints :
    ∃ u, step { State.reset with bp := [.A 0#16] } = .next u ∧ u.stopped.breakpoint = true := ⟨_, rfl, by decide⟩

theorem witness_RunOffTheEndStops :
    let s : State := { State.reset with pc := 32765#16 }
    s.fault = .noFault ∧ s.bp = [] ∧ s.pc.u16 ≤ 32766 ∧
      (∀ i : Nat, s.pc.u16 ≤ i → i ≤ 32766 → InstrMemory.read s.imem i = .instr .noneOp) ∧ 32767 - s.pc.u16 ≤ 2 :=
  ⟨rfl, rfl, by decide, fun _ _ _ => rfl, by decide⟩

theorem witness_StepKeepsInvariant :
    State.Inv (at_ 24576#16 3#16 32766#16 [(3, 1#16)] 0xFDC8) ∧
      ∃ t, step (at_ 24576#16 3#16 32766#16 [(3, 1#16)] 0xFDC8) = .next t := ⟨by decide, ⟨_, rfl⟩⟩

theorem witness_SessionKeepsInvariant : State.Inv (at_ 24576#16 3#16 0#16 [(3, 1#16)] 0xFDC8) := by decide

theorem witness_SessionNeverIllegal : NoIllegalSlot .reset ∧ ∀ w, State.reset.fault ≠ .illegalInstruction w :=
  ⟨by decide, nofun⟩

theorem witness_FaultStaysUntilHostClears :
    ({ State.reset with fault := .memFault 24577#16 } : State).fault ≠ .noFault := by decide

/-- The longest program that fits and the shortest that does not. -/
theorem witness_LoadInstallsProgram :
    (List.replicate 32767 Instr.labelOp).length ≤ 32767 ∧ 32767 < (List.replicate 32768 Instr.labelOp).length := by
  simp only [List.length_replicate]; decide

theorem witness_ImageWithIllegalWordRefused :
    (∃ w ∈ [0x0002#16, 0xC000#16], decode w = .illegal w) ∧
      [0x0002#16, 0x8000#16].map decode = [Instr.atValue 2#16, .noneOp].map Slot.instr :=
  ⟨⟨0xC000#16, by simp, rfl⟩, rfl⟩

theorem witness_TextLoadInstallsOrKeeps :
    assemble ["D=2".toList] = .error (.invalidLine 0 "D=2".toList) ∧
      (assemble ["D=1".toList]).map Prod.fst = .ok [.one .d .noJump] := by decide

theorem witness_PixelsTileTheScreen :
    (∃ t, exec (.minusOne .m .noJump) (regs 16384#16 0#16) = .next t) ∧
      ∃ t, exec (.one .m .noJump) (regs 16416#16 0#16) = .next t := ⟨⟨_, rfl⟩, ⟨_, rfl⟩⟩

theorem witness_CanonicalTextAssembles :
    Instr.wf (.shrM .amd .jle) = true ∧ instrText (.shrM .amd .jle) = some "AMD=M>>;JLE".toList := by decide

theorem witness_AssembledProgramIsEncodable :
    (assembleWith true ["@x".toList, "(L)".toList, "M=1".toList]).map Prod.fst =
      .ok [.atValue 16#16, .one .m .noJump] := by decide

end Sys2Proof.Machine.Tests
end

section
/-! SUPPORT. The C-instruction cycle: the jump decision against the signed result, the two outcomes of a
C-instruction by whether its data address exists, and what of the state it samples. -/

namespace Sys2Proof.Machine

/-! ### The jump decision -/

/-- The conditions `zr` and `ng` decide the relational test of R200 on the signed result (R202 to R209). -/
theorem jumpCond_iff_jumpTest (jump : Jump) (r : Word) : jumpCond jump r = true ↔ JumpTest jump r.s16 := by
  have hn : ng r = decide (r.toInt < 0) := by rw [Bool.eq_iff_iff, ng_iff, decide_eq_true_iff]
  have hz : zr r = decide (r.toInt = 0) := by rw [Bool.eq_iff_iff, zr_iff, decide_eq_true_iff]
  cases jump with
  | noJump | jeq | jge | jlt | jne | jmp => simp [jumpCond, JumpTest, hn, hz]
  | jgt | jle => simp [jumpCond, JumpTest, Word.s16, hn, hz]; omega

/-! ### The two outcomes -/

theorem reaches_iff_dataAddrValid (c : Comp) (dest : Dest) (s : State) :
    Reaches (readsM c) dest s ↔ (namesM c dest = true → dataAddrValid s.a = true) := by
  simp [Reaches, namesM, dataAddrValid_iff]

/-- A C-instruction that reaches stage 4 stores and decides pc (R144, R145). -/
theorem exec_ofComp_of_reaches {c : Comp} {dest : Dest} (jump : Jump) {s : State}
    (h : Reaches (readsM c) dest s) :
    exec (.ofComp c dest jump) s = .next (decidePc jump (result Config.decQuirk c s)
      (store dest s.a (result Config.decQuirk c s) s)) := by
  rw [exec_ofComp]
  exact execCompute_next jump ((reaches_iff_dataAddrValid c dest s).mp h)

/-- A C-instruction that does not reach stage 4 sets the fault latch and nothing else (R228, R230). -/
theorem exec_ofComp_of_not_reaches {c : Comp} {dest : Dest} (jump : Jump) {s : State}
    (h : ¬ Reaches (readsM c) dest s) :
    exec (.ofComp c dest jump) s = .next (s.raise (.memFault s.a)) := by
  rw [exec_ofComp]
  rcases execComputeWith_cases Config.decQuirk c dest jump s with ⟨-, -, hfault⟩ | ⟨hok, -⟩
  · exact hfault
  · rw [reaches_iff_dataAddrValid] at h
    rcases hok with hno | hvalid
    · simp [hno] at h
    · exact absurd (fun _ => hvalid) h

/-! ### What the cycle samples (R141, R147) -/

theorem reaches_congr {s s' : State} (ha : s.a = s'.a) (reads : Bool) (dest : Dest) :
    Reaches reads dest s ↔ Reaches reads dest s' := by
  simp [Reaches, ha]

/-- The ALU output is a function of A, D and the word at A (R142). -/
theorem result_congr {s s' : State} (ha : s.a = s'.a) (hd : s.d = s'.d) (hm : mOld s = mOld s')
    (quirk : Bool) (c : Comp) : result quirk c s = result quirk c s' := by
  have hop : operandM c s = operandM c s' := by
    unfold operandM
    split
    · exact hm
    · rfl
  simp only [result, ha, hd, hop]

/-- What the store stage leaves at the address it is given. -/
theorem read_store_same (dest : Dest) (addr r : Word) (s : State) :
    Memory.read (store dest addr r s).ram addr = if toM dest then r else Memory.read s.ram addr := by
  rw [store_ram]
  split
  · exact Memory.read_write_same ..
  · rfl

/-- The store stage changes no word but the one at the address it is given (R144). -/
theorem read_store_other (dest : Dest) {addr b : Word} (r : Word) (s : State) (hb : b ≠ addr) :
    Memory.read (store dest addr r s).ram b = Memory.read s.ram b := by
  rw [store_ram]
  split
  · exact Memory.read_write_other _ _ hb
  · rfl

/-! ### The statements of 41_c_cycle.md -/

/-- Settles O25: a C-instruction that reaches stage 4 ends in `decidePc` over the stored state, whose A is
the new A, and `jumpCond` is the signed test. -/
theorem jumpTargetIsCurrentA : Obligations.JumpTargetIsCurrentA := by
  unfold Obligations.JumpTargetIsCurrentA
  intro c dest jump s hreach
  refine ⟨_, exec_ofComp_of_reaches jump hreach, fun htaken => ?_, fun hnot => ?_⟩
  · simp [(jumpCond_iff_jumpTest ..).mpr htaken]
  · rw [← jumpCond_iff_jumpTest] at hnot
    simp only [decidePc_pc, if_neg hnot, store_pc, w16_succ]

/-- Settles O29: states that agree on the sampled part take the same outcome, and where it is the completed
one, the same result goes to the same targets. -/
theorem outcomeDependsOnSampledState : Obligations.OutcomeDependsOnSampledState := by
  unfold Obligations.OutcomeDependsOnSampledState
  intro c dest jump s s' t t' ha hd hpc hm ht ht'
  by_cases hreach : Reaches (readsM c) dest s
  · have hreach' := (reaches_congr ha _ _).mp hreach
    rw [exec_ofComp_of_reaches jump hreach, Host.Outcome.next.injEq] at ht
    rw [exec_ofComp_of_reaches jump hreach', ← result_congr ha hd hm, Host.Outcome.next.injEq] at ht'
    subst ht ht'
    refine ⟨by simp [ha], by simp [hd], by simp [ha, hpc], ?_, fun b hb => ?_⟩
    · rw [decidePc_ram, decidePc_ram, read_store_same, read_store_same]
      exact congrArg (ite _ _) hm
    · rw [decidePc_ram, read_store_other dest _ s hb]
  · have hreach' := mt (reaches_congr ha _ _).mpr hreach
    rw [exec_ofComp_of_not_reaches jump hreach, Host.Outcome.next.injEq] at ht
    rw [exec_ofComp_of_not_reaches jump hreach', Host.Outcome.next.injEq] at ht'
    subst ht ht'
    exact ⟨ha, hd, hpc, hm, fun _ _ => rfl⟩

end Sys2Proof.Machine
end

section
namespace Sys2Proof.Machine

/-! ### The statement of 70_reset_and_hazards.md -/

/-- After a RAM reset the data memory reads as if no word had ever been stored (R262). -/
theorem memRead_resetRam {b : Word} (s : State) (hb : b.u16 ≤ 24576) :
    memRead (resetRam s) b = some 0#16 := by
  rw [memRead_eq, if_pos hb, resetRam_ram, Memory.read_nil]

/-- Settles O49: the host operation is `resetRam`, which leaves the empty memory and every other field. -/
theorem resetRamZeroesOnlyMemory : Obligations.ResetRamZeroesOnlyMemory := by
  unfold Obligations.ResetRamZeroesOnlyMemory
  intro s
  refine ⟨fun b hb => ?_, ?_⟩
  · exact memRead_resetRam s hb
  · show { resetRam s with ram := s.ram } = s
    simp only [resetRam_a, resetRam_d, resetRam_pc, resetRam_imem, resetRam_bp, resetRam_fault,
      resetRam_stopped, resetRam_symbols]

end Sys2Proof.Machine
end

section
/-! SUPPORT. The decoder and the encoder as each other's inverse: the fields of a C word, the comp its upper
ten bits name, and the words that name none. -/

namespace Sys2Proof

/-! ### The destination and jump fields (R91, R92) -/

@[simp] theorem Dest.ofBits_bits (dest : Dest) : Dest.ofBits dest.bits = dest := by
  cases dest <;> rfl

@[simp] theorem Dest.bits_ofBits (x : BitVec 3) : (Dest.ofBits x).bits = x := by
  revert x; decide

@[simp] theorem Jump.ofBits_bits (jump : Jump) : Jump.ofBits jump.bits = jump := by
  cases jump <;> rfl

@[simp] theorem Jump.bits_ofBits (x : BitVec 3) : (Jump.ofBits x).bits = x := by
  revert x; decide

/-- The three jump bits, OR-ed, select the signs the jump is taken for (R92, R200). -/
theorem jumpTest_ofBits (x : BitVec 3) (r : Int) : Machine.JumpTest (.ofBits x) r ↔
    (x.getLsbD 2 = true ∧ r < 0) ∨ (x.getLsbD 1 = true ∧ r = 0) ∨ (x.getLsbD 0 = true ∧ 0 < r) := by
  unfold Jump.ofBits
  generalize x.getLsbD 2 = j1
  generalize x.getLsbD 1 = j2
  generalize x.getLsbD 0 = j3
  cases j1 <;> cases j2 <;> cases j3 <;> simp [Machine.JumpTest] <;> omega

/-! ### The comp field (R87 to R90) -/

/-- The match words of the 34 comps are distinct: each is looked up as its own comp. -/
theorem find_matchWord (c : Comp) : (Comp.all.find? fun c' => c'.matchWord == c.matchWord) = some c := by
  cases c <;> decide

/-- Every match word has bit 15 set and is the word of neither no-operation. -/
theorem matchWord_ne (c : Comp) :
    c.matchWord.getLsbD 15 = true ∧ c.matchWord ≠ noneWord &&& 0xFFC0#16 ∧
      c.matchWord ≠ labelWord &&& 0xFFC0#16 := by
  cases c <;> decide

/-- A match word is a class, a selector and six zero bits, as its definition writes it. -/
theorem matchWord_getLsbD (c : Comp) (i : Nat) : c.matchWord.getLsbD i =
    if i < 6 then false else if i - 6 < 7 then c.selector.getLsbD (i - 6) else c.wordClass.getLsbD (i - 6 - 7) := by
  unfold Comp.matchWord
  refine (BitVec.getLsbD_append ..).trans ?_
  split
  · exact BitVec.getLsbD_zero
  · exact BitVec.getLsbD_append ..

/-- The fields of a match word are zero. -/
theorem matchWord_field (c : Comp) {i : Nat} (hi : i < 6) : c.matchWord[i] = false := by
  rw [← BitVec.getLsbD_eq_getElem, matchWord_getLsbD, if_pos hi]

theorem matchWord_eq_iff (c : Comp) (w : Word) :
    c.matchWord = w &&& 0xFFC0#16 ↔ c.wordClass = w.extractLsb' 13 3 ∧ c.selector = w.extractLsb' 6 7 := by
  have hmask : ∀ i, (w &&& 0xFFC0#16).getLsbD i = (decide (6 ≤ i ∧ i < 16) && w.getLsbD i) := by
    intro i
    by_cases hi : i < 16
    · interval_cases i <;> simp
    · rw [BitVec.getLsbD_of_ge _ _ (by omega)]; simp [hi]
  constructor
  · intro h
    have hbit : ∀ i, c.matchWord.getLsbD i = (w &&& 0xFFC0#16).getLsbD i := fun i => by rw [h]
    simp only [matchWord_getLsbD, hmask] at hbit
    constructor
    · ext i hi
      have := hbit (13 + i)
      grind
    · ext i hi
      have := hbit (6 + i)
      grind
  · rintro ⟨hclass, hsel⟩
    ext i hi
    have := hmask i
    have := matchWord_getLsbD c i
    rw [hclass, hsel] at this
    grind

theorem compOfWord_eq_some {w : Word} {c : Comp} (h : compOfWord w = some c) :
    c.matchWord = w &&& 0xFFC0#16 := by
  simpa using List.find?_some h

/-! ### A C word, field by field -/

section encodeC
variable (dest : Dest) (c : Comp) (jump : Jump)

theorem encodeC_dest : (encodeC dest c jump).extractLsb' 3 3 = dest.bits := by
  ext i hi
  interval_cases i <;> simp [encodeC, matchWord_field]

theorem encodeC_jump : (encodeC dest c jump).extractLsb' 0 3 = jump.bits := by
  ext i hi
  interval_cases i <;> simp [encodeC, matchWord_field]

theorem compOfWord_encodeC : compOfWord (encodeC dest c jump) = some c := by
  rw [compOfWord, Laws.encodeC_comp_bits, find_matchWord]

theorem decode_encodeC : decode (encodeC dest c jump) = .instr (.ofComp c dest jump) := by
  obtain ⟨hbit, hnone, hlabel⟩ := matchWord_ne c
  rw [← Laws.encodeC_comp_bits dest c jump] at hbit hnone hlabel
  have h15 : (encodeC dest c jump).getLsbD 15 = true := by
    rw [BitVec.getLsbD_and] at hbit
    simpa using hbit
  rw [decode, if_neg (by simp [h15]), if_neg fun h => hnone (by rw [h]), if_neg fun h => hlabel (by rw [h]),
    compOfWord_encodeC, encodeC_dest, encodeC_jump, Dest.ofBits_bits, Jump.ofBits_bits]

end encodeC

/-- Whatever comp the upper ten bits of a word name, the word is that comp's with the fields it holds. -/
theorem encodeC_fields {w : Word} {c : Comp} (h : c.matchWord = w &&& 0xFFC0#16) :
    encodeC (.ofBits (w.extractLsb' 3 3)) c (.ofBits (w.extractLsb' 0 3)) = w := by
  rw [encodeC, Dest.bits_ofBits, Jump.bits_ofBits, h]
  ext i hi
  interval_cases i <;> simp

/-! ### The decoder's cases (R96) -/

/-- Bit 15 of a word in terms of its number. -/
theorem getLsbD_15_eq_false_iff (w : Word) : w.getLsbD 15 = false ↔ w.u16 < 32768 := by
  rw [← Bool.not_eq_true, ← Nat.not_le]
  exact not_congr (Machine.ng_iff_toNat w)

/-- The word of `A(v)` is `v` itself, where bit 15 of `v` is clear (R86). -/
theorem encode_atValue (v : Word) : encode (.atValue v) = if v.u16 < 32768 then some v else none := by
  have hdef : encode (.atValue v) = if v.getLsbD 15 then none else some v := rfl
  rw [hdef]
  by_cases hv : v.u16 < 32768
  · rw [if_pos hv, (getLsbD_15_eq_false_iff v).mpr hv]
    rfl
  · rw [if_neg hv, if_pos (Bool.not_eq_false _ ▸ mt (getLsbD_15_eq_false_iff v).mp hv)]

/-- The 15 value bits of an A word, zero-extended, are the word (R86). -/
theorem zeroExtend_value {w : Word} (h : w.getLsbD 15 = false) : (w.extractLsb' 0 15).zeroExtend 16 = w := by
  ext i hi
  interval_cases i <;> simp_all

/-- The five ways a word decodes. -/
theorem decode_cases (w : Word) :
    (w.getLsbD 15 = false ∧ decode w = .instr (.atValue w)) ∨
    (w = noneWord ∧ decode w = .instr .noneOp) ∨ (w = labelWord ∧ decode w = .instr .labelOp) ∨
    (∃ c, c.matchWord = w &&& 0xFFC0#16 ∧ decode w =
      .instr (.ofComp c (.ofBits (w.extractLsb' 3 3)) (.ofBits (w.extractLsb' 0 3)))) ∨
    (w.getLsbD 15 = true ∧ w ≠ noneWord ∧ w ≠ labelWord ∧ compOfWord w = none ∧ decode w = .illegal w) := by
  unfold decode
  split
  case isTrue h => exact .inl ⟨h, by rw [zeroExtend_value h]⟩
  case isFalse h15 =>
    split
    case isTrue h => exact .inr (.inl ⟨h, rfl⟩)
    case isFalse hnone =>
      split
      case isTrue h => exact .inr (.inr (.inl ⟨h, rfl⟩))
      case isFalse hlabel =>
        cases h : compOfWord w with
        | some c => exact .inr (.inr (.inr (.inl ⟨c, compOfWord_eq_some h, rfl⟩)))
        | none => exact .inr (.inr (.inr (.inr ⟨by simpa using h15, hnone, hlabel, rfl, rfl⟩)))

/-- A word decodes to an instruction only if it is that instruction's word (R96). -/
theorem encode_of_decode {w : Word} {i : Instr} (h : decode w = .instr i) : encode i = some w := by
  rcases decode_cases w with ⟨h15, hd⟩ | ⟨rfl, hd⟩ | ⟨rfl, hd⟩ | ⟨c, hc, hd⟩ | ⟨-, -, -, -, hd⟩
  · obtain rfl := Slot.instr.inj (hd.symm.trans h)
    rw [encode_atValue, if_pos ((getLsbD_15_eq_false_iff w).mp h15)]
  · obtain rfl := Slot.instr.inj (hd.symm.trans h)
    rfl
  · obtain rfl := Slot.instr.inj (hd.symm.trans h)
    rfl
  · obtain rfl := Slot.instr.inj (hd.symm.trans h)
    rw [encode, Machine.Instr.typed_ofComp]
    exact congrArg some (encodeC_fields hc)
  · simp [hd] at h

/-- The word of an instruction decodes to it, and only `A(v)` with bit 15 of `v` set has none (R86, R96). -/
theorem decode_encode_cases (i : Instr) :
    (∃ w, encode i = some w ∧ decode w = .instr i) ∨
      (encode i = none ∧ ∃ v : Word, i = .atValue v ∧ 32768 ≤ v.u16) := by
  rcases Machine.Instr.eq_cases i with ⟨c, dest, jump, rfl⟩ | ⟨v, rfl⟩ | rfl | rfl
  · refine .inl ⟨encodeC dest c jump, ?_, decode_encodeC dest c jump⟩
    rw [encode, Machine.Instr.typed_ofComp]
  · rw [encode_atValue]
    split
    case isTrue hv =>
      have h15 := (getLsbD_15_eq_false_iff v).mpr hv
      exact .inl ⟨v, rfl, by rw [decode, if_pos h15, zeroExtend_value h15]⟩
    case isFalse hv => exact .inr ⟨rfl, v, rfl, by omega⟩
  · exact .inl ⟨labelWord, rfl, rfl⟩
  · exact .inl ⟨noneWord, rfl, rfl⟩

/-! ### The illegal words (R95) -/

/-- The selectors of a class: the rows of R88 and R89, or those of R90. -/
def classSelectors (cls : BitVec 3) : List (BitVec 7) :=
  (Comp.all.filter fun c => c.wordClass == cls).map Comp.selector

theorem classSelectors_100 : classSelectors 0b100#3 = [] := rfl

theorem classSelectors_110 : classSelectors 0b110#3 = [] := rfl

/-- A word names no comp exactly if its selector is none of its class's. -/
theorem compOfWord_eq_none_iff (w : Word) :
    compOfWord w = none ↔ w.extractLsb' 6 7 ∉ classSelectors (w.extractLsb' 13 3) := by
  simp [compOfWord, classSelectors, matchWord_eq_iff]

theorem decode_illegal_self {w w' : Word} (h : decode w = .illegal w') : w' = w := by
  rcases decode_cases w with ⟨-, hd⟩ | ⟨-, hd⟩ | ⟨-, hd⟩ | ⟨c, -, hd⟩ | ⟨-, -, -, -, hd⟩
  all_goals rw [hd] at h; cases h
  rfl

theorem decode_eq_illegal_iff (w : Word) : decode w = .illegal w ↔
    w.getLsbD 15 = true ∧ w ≠ noneWord ∧ w ≠ labelWord ∧
      w.extractLsb' 6 7 ∉ classSelectors (w.extractLsb' 13 3) := by
  rw [← compOfWord_eq_none_iff]
  constructor
  · intro h
    rcases decode_cases w with ⟨-, hd⟩ | ⟨-, hd⟩ | ⟨-, hd⟩ | ⟨c, -, hd⟩ | ⟨h15, hnone, hlabel, hcomp, -⟩
    case inr.inr.inr.inr => exact ⟨h15, hnone, hlabel, hcomp⟩
    all_goals rw [hd] at h; cases h
  · rintro ⟨h15, hnone, hlabel, hcomp⟩
    simp [decode, h15, hnone, hlabel, hcomp]

/-- The classes of R85: bit 15 clear is an A word whatever the other two, and four classes have it set. -/
theorem wordClass_cases (x : BitVec 3) :
    (x.getLsbD 2 = false ∧ x ≠ 0b100#3 ∧ x ≠ 0b110#3 ∧ x ≠ 0b111#3 ∧ x ≠ 0b101#3) ∨
      x = 0b100#3 ∨ x = 0b110#3 ∨ x = 0b111#3 ∨ x = 0b101#3 := by
  revert x; decide

/-! ### The statements of 30_encoding.md -/

/-- Settles O2: the words of the four variants, each decoded. -/
theorem decodeOfEncode : Obligations.DecodeOfEncode := by
  unfold Obligations.DecodeOfEncode
  exact decode_encode_cases

/-- Settles O3: `encode_of_decode`; two words of one instruction are then equal. -/
theorem encodeOfDecode : Obligations.EncodeOfDecode := by
  unfold Obligations.EncodeOfDecode
  refine ⟨fun w i h => encode_of_decode h, fun w w' i h h' => ?_⟩
  exact Option.some.inj ((encode_of_decode h).symm.trans (encode_of_decode h'))

/-- Settles O4: by the class of the word; classes `100` and `110` have no selector, and the other two have
those of their tables. -/
theorem illegalWordsAreThoseListed : Obligations.IllegalWordsAreThoseListed := by
  unfold Obligations.IllegalWordsAreThoseListed
  refine ⟨fun w w' h => decode_illegal_self h, fun w => ?_⟩
  have h15 : w.getLsbD 15 = (w.extractLsb' 13 3).getLsbD 2 := by simp
  have hne : w.extractLsb' 13 3 ≠ 0b100#3 → w ≠ noneWord ∧ w ≠ labelWord :=
    fun h => ⟨fun e => h (e ▸ rfl), fun e => h (e ▸ rfl)⟩
  rw [decode_eq_illegal_iff, h15]
  rcases wordClass_cases (w.extractLsb' 13 3) with ⟨hbit, h4, h6, h7, h5⟩ | h | h | h | h
  · simp only [hbit, h4, h6, h7, h5, Bool.false_eq_true, false_and, or_self]
  all_goals simp only [h] at hne ⊢
  · simp [classSelectors_100, noneWord, labelWord]
  · simp [hne, classSelectors_110]
  · simp [hne, classSelectors, Comp.all, Comp.wordClass, Comp.selector]
  · simp [hne, classSelectors, Comp.all, Comp.wordClass, Comp.selector]

/-- Settles O5: the value bits of a word with bit 15 clear are the word. -/
theorem addressWordZeroExtends : Obligations.AddressWordZeroExtends := by
  unfold Obligations.AddressWordZeroExtends
  intro w h15
  have hlt := (getLsbD_15_eq_false_iff w).mp h15
  refine ⟨w, by rw [decode, if_pos h15, zeroExtend_value h15], rfl, by omega, ?_⟩
  exact BitVec.toInt_eq_toNat_of_lt (by rw [← Word.u16]; omega)

/-- Settles O6: the eight values of each field; a result has exactly one sign. -/
theorem fieldBitsMeanTargetsAndSigns : Obligations.FieldBitsMeanTargetsAndSigns := by
  unfold Obligations.FieldBitsMeanTargetsAndSigns
  refine ⟨by decide, fun x r => ?_⟩
  rw [Machine.jumpCond_iff_jumpTest, jumpTest_ofBits]

/-- Settles O1: each word, decoded. -/
theorem writtenWordsDecode : Obligations.WrittenWordsDecode := by
  unfold Obligations.WrittenWordsDecode
  decide

end Sys2Proof
end

section
/-! SUPPORT. What one instruction can do: the four ways `exec` ends, and the statements about destinations,
jumps, faults and frames that follow from them. -/

namespace Sys2Proof.Machine

/-! ### The ways an instruction ends -/

/-- Every way an instruction ends (R221): the fault of R230, the cycle's last stage (R145), the load of A
(R130), or the bare advance (R131, R132). -/
theorem exec_cases {i : Instr} {s t : State} (h : exec i s = .next t) :
    (∃ c dest jump, i = .ofComp c dest jump ∧ ¬ Reaches (readsM c) dest s ∧ t = s.raise (.memFault s.a)) ∨
    (∃ c dest jump, i = .ofComp c dest jump ∧ Reaches (readsM c) dest s ∧
      t = decidePc jump (result Config.decQuirk c s) (store dest s.a (result Config.decQuirk c s) s)) ∨
    (∃ v, i = .atValue v ∧ t = (s.setA v).advance) ∨ ((i = .labelOp ∨ i = .noneOp) ∧ t = s.advance) := by
  rcases Instr.eq_cases i with ⟨c, dest, jump, rfl⟩ | ⟨v, rfl⟩ | hi | hi
  · by_cases hr : Reaches (readsM c) dest s
    · rw [exec_ofComp_of_reaches jump hr] at h
      exact .inr (.inl ⟨c, dest, jump, rfl, hr, (Host.Outcome.next.inj h).symm⟩)
    · rw [exec_ofComp_of_not_reaches jump hr] at h
      exact .inl ⟨c, dest, jump, rfl, hr, (Host.Outcome.next.inj h).symm⟩
  · exact .inr (.inr (.inl ⟨v, rfl, (Host.Outcome.next.inj h).symm⟩))
  all_goals
    subst hi
    exact .inr (.inr (.inr ⟨by simp, (Host.Outcome.next.inj h).symm⟩))

theorem not_reaches_iff {reads : Bool} {dest : Dest} {s : State} :
    ¬ Reaches reads dest s ↔ (reads = true ∨ toM dest = true) ∧ 24576 < s.a.u16 := by
  simp [Reaches]

section frame
variable {i : Instr} {s t : State} (h : exec i s = .next t)
include h

/-- No instruction touches the instruction memory, the breakpoint set, the stop latch or the symbol table. -/
theorem exec_frame : t.imem = s.imem ∧ t.bp = s.bp ∧ t.stopped = s.stopped ∧ t.symbols = s.symbols := by
  rcases exec_cases h with ⟨c, dest, jump, -, -, rfl⟩ | ⟨c, dest, jump, -, -, rfl⟩ | ⟨v, -, rfl⟩ | ⟨-, rfl⟩
  all_goals simp

/-- The fault latch changes only by the fault of R230, and then alone (R228). -/
theorem exec_fault : t.fault = s.fault ∨ t = s.raise (.memFault s.a) := by
  rcases exec_cases h with ⟨c, dest, jump, -, -, ht⟩ | ⟨c, dest, jump, -, -, rfl⟩ | ⟨v, -, rfl⟩ | ⟨-, rfl⟩
  · exact .inr ht
  all_goals exact .inl (by simp)

/-- RAM changes only by the store of a destination that names M, at the old A, which exists (R56, R144). -/
theorem exec_ram : t.ram = s.ram ∨ (∃ v, t.ram = Memory.write s.ram s.a v) ∧ s.a.u16 ≤ 24576 ∧
    ∃ c dest jump, i = .ofComp c dest jump ∧ toM dest = true := by
  rcases exec_cases h with ⟨c, dest, jump, -, -, rfl⟩ | ⟨c, dest, jump, hi, hr, rfl⟩ | ⟨v, -, rfl⟩ | ⟨-, rfl⟩
  · exact .inl rfl
  · by_cases hM : toM dest = true
    · exact .inr ⟨⟨result Config.decQuirk c s, by simp [hM]⟩, hr (.inr hM), c, dest, jump, hi, hM⟩
    · exact .inl (by simp [hM])
  · exact .inl rfl
  · exact .inl rfl

/-- D changes only by a destination that names it. -/
theorem exec_d : t.d = s.d ∨ ∃ c dest jump, i = .ofComp c dest jump ∧ toD dest = true := by
  rcases exec_cases h with ⟨c, dest, jump, -, -, rfl⟩ | ⟨c, dest, jump, hi, -, rfl⟩ | ⟨v, -, rfl⟩ | ⟨-, rfl⟩
  · exact .inl rfl
  · by_cases hD : toD dest = true
    · exact .inr ⟨c, dest, jump, hi, hD⟩
    · exact .inl (by simp [hD])
  · exact .inl rfl
  · exact .inl rfl

/-- pc stays at a faulting instruction, advances, or becomes A (R145, R228). -/
theorem exec_pc : (t.pc = s.pc ∧ t = s.raise (.memFault s.a)) ∨ t.pc = s.pc + 1#16 ∨ t.pc = t.a := by
  rcases exec_cases h with ⟨c, dest, jump, -, -, rfl⟩ | ⟨c, dest, jump, -, -, rfl⟩ | ⟨v, -, rfl⟩ | ⟨-, rfl⟩
  · exact .inl ⟨rfl, rfl⟩
  · by_cases hj : jumpCond jump (result Config.decQuirk c s) = true
    · exact .inr (.inr (by simp [hj]))
    · exact .inr (.inl (by simp [hj]))
  · exact .inr (.inl rfl)
  · exact .inr (.inl rfl)

end frame

/-! ### The statements of 40_a_label_none.md -/

/-- Settles O7: `A(v)` sets A and advances (R130); its word is that of `encode_atValue`. -/
theorem addressLoadSetsA : Obligations.AddressLoadSetsA := by
  unfold Obligations.AddressLoadSetsA
  intro v s
  rw [w16_succ]
  exact ⟨rfl, encode_atValue v⟩

/-- Settles O8: both no-operations only advance. -/
theorem noOperationsOnlyAdvance : Obligations.NoOperationsOnlyAdvance := by
  unfold Obligations.NoOperationsOnlyAdvance
  refine ⟨fun s => ?_, fun s => ?_, rfl, rfl⟩
  · rw [w16_succ]
    rfl
  · rw [w16_succ]
    rfl

/-! ### Destinations and jumps (R190 to R209) -/

/-- What a completed C-instruction leaves, but for pc (R143, R144). -/
theorem storesTo (c : Comp) (dest : Dest) : StoresTo c dest (toA dest) (toD dest) (toM dest) := by
  intro jump s hread
  constructor
  · intro hM hbad
    exact exec_ofComp_of_not_reaches jump (not_reaches_iff.mpr ⟨.inr hM, hbad⟩)
  · intro hok
    have hreach : Reaches (readsM c) dest s := by
      rintro (hc | hM)
      · exact hread (.inl hc)
      · exact hok hM
    refine ⟨_, exec_ofComp_of_reaches jump hreach, by simp, by simp, fun hM => ?_, fun b hb => ?_, ?_⟩
    · simp [hM]
    · rw [decidePc_ram]
      rcases hb with hM | hb
      · simp [hM]
      · exact read_store_other dest _ s hb
    · simp

/-- Settles O22: each destination names the targets its letters say. -/
theorem destinationStoresResult : Obligations.DestinationStoresResult := by
  unfold Obligations.DestinationStoresResult
  exact ⟨⟨rfl, fun c => storesTo c .noDest⟩, ⟨rfl, fun c => storesTo c .m⟩, ⟨rfl, fun c => storesTo c .d⟩,
    ⟨rfl, fun c => storesTo c .md⟩, ⟨rfl, fun c => storesTo c .a⟩, ⟨rfl, fun c => storesTo c .ad⟩⟩

/-- Settles O23: the store stage is given the old A as the address. -/
theorem storeWithNewAUsesOldAddress : Obligations.StoreWithNewAUsesOldAddress := by
  unfold Obligations.StoreWithNewAUsesOldAddress
  exact ⟨⟨rfl, fun c => storesTo c .am⟩, ⟨rfl, fun c => storesTo c .amd⟩⟩

theorem takenFor {jump : Jump} {taken : Nat → Prop} (h : ∀ r : Word, jumpCond jump r = true ↔ taken r.u16) :
    TakenFor jump jump.bits taken := by
  refine ⟨rfl, fun c dest s hreach => ?_⟩
  refine ⟨_, exec_ofComp_of_reaches jump hreach, by simp, by simp, fun hM => by simp [hM], fun ht => ?_, fun ht => ?_⟩
  · simp [(h _).mpr ht]
  · rw [← h] at ht
    simp only [decidePc_pc, if_neg ht, store_pc, w16_succ]

/-- Settles O24: `zr` and `ng` in terms of the unsigned reading, for each jump. -/
theorem jumpsTakenByResultRange : Obligations.JumpsTakenByResultRange := by
  unfold Obligations.JumpsTakenByResultRange
  have hz (r : Word) : zr r = decide (r.toNat = 0) := by rw [Bool.eq_iff_iff, zr_iff_toNat, decide_eq_true_iff]
  have hn (r : Word) : ng r = decide (32768 ≤ r.toNat) := by rw [Bool.eq_iff_iff, ng_iff_toNat, decide_eq_true_iff]
  refine ⟨takenFor fun r => ?_, takenFor fun r => ?_, takenFor fun r => ?_, takenFor fun r => ?_,
    takenFor fun r => ?_, takenFor fun r => ?_, takenFor fun r => ?_, takenFor fun r => ?_⟩
  all_goals simp only [jumpCond, hz, hn, Word.u16, Bool.and_eq_true, Bool.or_eq_true, Bool.not_eq_true',
    decide_eq_true_iff, decide_eq_false_iff_not, Bool.false_eq_true]
  all_goals omega

/-! ### Faults and frames -/

/-- Settles O26: a C-instruction that names M at a bad address ends in `raise`. -/
theorem memFaultIsPrecise : Obligations.MemFaultIsPrecise := by
  unfold Obligations.MemFaultIsPrecise
  intro c dest jump s hnames hbad
  exact exec_ofComp_of_not_reaches jump (not_reaches_iff.mpr ⟨hnames, hbad⟩)

/-- Settles O27: of the ways an instruction ends only the fault of R230 touches the latch. -/
theorem faultOnlyFromBadDataAddress : Obligations.FaultOnlyFromBadDataAddress := by
  unfold Obligations.FaultOnlyFromBadDataAddress
  intro i s t h hf
  rcases exec_cases h with ⟨c, dest, jump, rfl, hr, rfl⟩ | ⟨c, dest, jump, -, -, rfl⟩ | ⟨v, -, rfl⟩ | ⟨-, rfl⟩
  · obtain ⟨hnames, hbad⟩ := not_reaches_iff.mp hr
    exact ⟨hbad, rfl, c, dest, jump, rfl, hnames⟩
  all_goals exact absurd (by simp) hf

/-- Settles O28: the frame lemmas of `exec`. -/
theorem instructionsFrame : Obligations.InstructionsFrame := by
  unfold Obligations.InstructionsFrame
  intro i s t h
  obtain ⟨himem, hbp, hstopped, hsymbols⟩ := exec_frame h
  refine ⟨himem, hbp, hstopped, hsymbols, fun b hb => ?_, fun hne => ?_, fun hne => ?_⟩
  · rcases exec_ram h with hram | ⟨⟨v, hram⟩, -⟩
    · rw [hram]
    · rw [hram, Memory.read_write_other _ _ hb]
  · obtain ⟨-, ha, c, dest, jump, hi, hM⟩ := (exec_ram h).resolve_left hne
    exact ⟨c, dest, jump, hi, hM, ha⟩
  · exact (exec_d h).resolve_left hne

/-! ### The operand M (R141) -/

/-- The ALU output in terms of the word at A, which a comp that does not name M ignores. -/
theorem result_eq_alu_mOld (quirk : Bool) (c : Comp) (s : State) :
    result quirk c s = alu quirk c s.a s.d (mOld s) := by
  cases h : readsM c with
  | true => simp [result, operandM, h, mOld]
  | false => exact alu_of_not_readsM h ..

theorem result_of_not_readsM {c : Comp} (h : readsM c = false) (quirk : Bool) {s s' : State} (ha : s.a = s'.a)
    (hd : s.d = s'.d) : result quirk c s = result quirk c s' := by
  rw [result, result, ha, hd]
  exact alu_of_not_readsM h ..

/-- Settles O30: both instructions complete with one result, which goes to the same targets. -/
theorem noDependenceOnRamWithoutM : Obligations.NoDependenceOnRamWithoutM := by
  unfold Obligations.NoDependenceOnRamWithoutM
  intro c dest jump s m hc hreach
  rw [← hc] at hreach
  refine ⟨_, _, exec_ofComp_of_reaches jump hreach, exec_ofComp_of_reaches (s := { s with ram := m }) jump hreach, ?_⟩
  rw [result_of_not_readsM hc _ (s := { s with ram := m }) (s' := s) rfl rfl]
  exact ⟨by simp, by simp, by simp, by simp, fun hM => by simp [hM]⟩

/-- Settles O31: the primitives by the range of the address; the cycle samples and stores at the old A. -/
theorem memReadMemWrite : Obligations.MemReadMemWrite := by
  unfold Obligations.MemReadMemWrite
  refine ⟨fun s addr v => ⟨fun hbad => ?_, fun hok => ?_⟩, fun c dest jump s hok => ?_⟩
  · have hbad : ¬ addr.toNat ≤ 24576 := Nat.not_le.mpr hbad
    rw [memRead_eq, memWrite_eq, if_neg hbad, if_neg hbad]
    exact ⟨rfl, rfl⟩
  · refine ⟨by rw [memRead_eq, if_pos hok], s.setRam addr v, by rw [memWrite_eq, if_pos hok], ?_, fun b hb => ?_, rfl⟩
    · rw [memRead_eq, if_pos hok, State.setRam_ram, Memory.read_write_same]
    · rw [memRead_eq, memRead_eq, State.setRam_ram, Memory.read_write_other _ _ hb]
  · refine ⟨mOld s, _, _, by rw [memRead_eq, if_pos hok, mOld], by rw [memWrite_eq, if_pos hok],
      exec_ofComp_of_reaches jump fun _ => hok, fun hc => by rw [operandM, if_pos hc, mOld],
      result_eq_alu_mOld Config.decQuirk c s, ?_⟩
    rw [decidePc_ram, store_ram, result_eq_alu_mOld, State.setRam_ram]

end Sys2Proof.Machine
end

section
/-! SUPPORT. The comps' results (42_comp_classic.md to 44_comp_shift.md): the word of a comp, the effect of
its cycle, and its ALU function in terms of numbers. -/

namespace Sys2Proof.Machine

/-! ### One comp: its word and its effect -/

/-- The words of a comp are its match word with the two fields (R93). -/
theorem wordForm_ofComp (c : Comp) : WordForm (Instr.ofComp c) c.matchWord := by
  intro dest jump
  rw [encode, Instr.typed_ofComp]
  rfl

/-- The store and the pc decision are the effect of the cycle, whatever the result (R143 to R145). -/
theorem cycleEffect_decidePc_store (dest : Dest) (jump : Jump) (r : Word) (s : State) :
    CycleEffect dest jump r s (decidePc jump r (store dest s.a r s)) := by
  refine ⟨by simp, by simp, fun hM => by simp [hM], fun b hb => ?_, fun ht => ?_, fun ht => ?_, by simp⟩
  · rw [decidePc_ram]
    rcases hb with hM | hb
    · simp [hM]
    · exact read_store_other dest r s hb
  · simp [(jumpCond_iff_jumpTest ..).mpr ht]
  · rw [← jumpCond_iff_jumpTest] at ht
    simp only [decidePc_pc, if_neg ht, store_pc, w16_succ]

/-- Where the named address exists the cycle completes, for either value of `DEC_QUIRK`. -/
theorem execComputeWith_effect {quirk : Bool} {c : Comp} {dest : Dest} (jump : Jump) {s : State} {r : Word}
    (hreach : Reaches (readsM c) dest s) (hr : result quirk c s = r) :
    ∃ t, execComputeWith quirk c dest jump s = .next t ∧ CycleEffect dest jump r s t := by
  rcases execComputeWith_cases quirk c dest jump s with ⟨hnames, hbad, -⟩ | ⟨-, h⟩
  · simp [(reaches_iff_dataAddrValid c dest s).mp hreach hnames] at hbad
  · exact ⟨_, h, hr ▸ cycleEffect_decidePc_store dest jump _ s⟩

/-- A comp gives its ALU function of A, D and the word at A. -/
theorem gives_ofComp (c : Comp) {r : State → Word} (hr : ∀ s, alu Config.decQuirk c s.a s.d (mOld s) = r s) :
    Gives (readsM c) (Instr.ofComp c) r := by
  intro dest jump s hreach
  rw [exec_ofComp]
  exact execComputeWith_effect jump hreach ((result_eq_alu_mOld ..).trans (hr s))

/-! ### The ALU functions as numbers (R10) -/

/-- A word is `w16(n)` if its number is `n mod 65536` (R10). -/
theorem eq_w16 {w : Word} {n : Int} (h : (w.toNat : Int) = n % 65536) : w = Word.w16 n := by
  apply BitVec.eq_of_toNat_eq
  rw [Word.w16, BitVec.toNat_ofInt]
  omega

theorem not_eq_w16 (w : Word) : ~~~w = Word.w16 (65535 - w.u16) := by
  refine eq_w16 ?_
  rw [Word.u16, BitVec.toNat_not]
  omega

theorem neg_eq_w16 (w : Word) : -w = Word.w16 (0 - w.u16) := by
  refine eq_w16 ?_
  rw [Word.u16, BitVec.toNat_neg]
  omega

theorem pred_eq_w16 (w : Word) : w - 1#16 = Word.w16 (w.u16 - 1) := by
  refine eq_w16 ?_
  rw [Word.u16, BitVec.toNat_sub, BitVec.toNat_ofNat]
  omega

theorem add_eq_w16 (x y : Word) : x + y = Word.w16 (x.u16 + y.u16) := by
  refine eq_w16 ?_
  rw [Word.u16, Word.u16, BitVec.toNat_add]
  omega

theorem sub_eq_w16 (x y : Word) : x - y = Word.w16 (x.u16 - y.u16) := by
  refine eq_w16 ?_
  rw [Word.u16, Word.u16, BitVec.toNat_sub]
  omega

theorem shl1_eq_w16 (w : Word) : shl1 w = Word.w16 (2 * w.u16) := by
  refine eq_w16 ?_
  rw [Word.u16, shl1_toNat]
  omega

theorem shr1_eq_w16 (w : Word) : shr1 w = Word.w16 (w.u16 / 2 : Nat) := by
  refine eq_w16 ?_
  rw [Word.u16, shr1_toNat]
  omega

theorem decrement_eq_w16 (quirk : Bool) (w : Word) :
    decrement quirk w = if quirk then Word.w16 (w.u16 + 1) else Word.w16 (w.u16 - 1) := by
  rw [w16_succ, ← pred_eq_w16]
  rfl

/-! ### The statements of 42_comp_classic.md -/

/-- Settles O9: the ALU answers the constant or the register itself. -/
theorem constantAndPassCompsResult : Obligations.ConstantAndPassCompsResult := by
  unfold Obligations.ConstantAndPassCompsResult
  exact ⟨wordForm_ofComp .zero, gives_ofComp .zero fun _ => rfl,
    wordForm_ofComp .one, gives_ofComp .one fun _ => rfl,
    wordForm_ofComp .minusOne, gives_ofComp .minusOne fun _ => rfl,
    wordForm_ofComp .passD, gives_ofComp .passD fun _ => rfl,
    wordForm_ofComp .passA, gives_ofComp .passA fun _ => rfl⟩

/-- Settles O10: the complement is 65535 minus the operand, the negation 0 minus it. -/
theorem registerComplementNegateResult : Obligations.RegisterComplementNegateResult := by
  unfold Obligations.RegisterComplementNegateResult
  exact ⟨wordForm_ofComp .notD, gives_ofComp .notD fun s => not_eq_w16 s.d,
    wordForm_ofComp .notA, gives_ofComp .notA fun s => not_eq_w16 s.a,
    wordForm_ofComp .negD, gives_ofComp .negD fun s => neg_eq_w16 s.d,
    wordForm_ofComp .negA, gives_ofComp .negA fun s => neg_eq_w16 s.a⟩

/-- Settles O11: the ALU adds one to the register. -/
theorem registerIncrementResult : Obligations.RegisterIncrementResult := by
  unfold Obligations.RegisterIncrementResult
  exact ⟨wordForm_ofComp .incD, gives_ofComp .incD fun s => (w16_succ s.d).symm,
    wordForm_ofComp .incA, gives_ofComp .incA fun s => (w16_succ s.a).symm⟩

/-- Settles O12: `decrement` with `DEC_QUIRK` true. -/
theorem registerDecrementAddsOne : Obligations.RegisterDecrementAddsOne := by
  unfold Obligations.RegisterDecrementAddsOne
  exact ⟨wordForm_ofComp .decD, gives_ofComp .decD fun s => decrement_eq_w16 true s.d,
    wordForm_ofComp .decA, gives_ofComp .decA fun s => decrement_eq_w16 true s.a⟩

/-- The ALU depends on `DEC_QUIRK` in two comps only (R162, R163). -/
theorem alu_quirk {c : Comp} (hD : c ≠ .decD) (hA : c ≠ .decA) (quirk quirk' : Bool) (a d m : Word) :
    alu quirk c a d m = alu quirk' c a d m := by
  cases c
  case decD => exact absurd rfl hD
  case decA => exact absurd rfl hA
  all_goals rfl

/-- Settles O13: `decrement` for either value; elsewhere the ALU, and so the cycle, does not see it. -/
theorem decrementForBothQuirks : Obligations.DecrementForBothQuirks := by
  unfold Obligations.DecrementForBothQuirks
  refine ⟨fun quirk dest jump s hreach => ?_, fun quirk dest jump s hreach => ?_, fun c dest jump s hD hA => ?_⟩
  · exact execComputeWith_effect (c := .decD) jump hreach (decrement_eq_w16 quirk s.d)
  · exact execComputeWith_effect (c := .decA) jump hreach (decrement_eq_w16 quirk s.a)
  · have hresult : result true c s = result false c s := alu_quirk hD hA ..
    rw [execComputeWith, execComputeWith, hresult]

/-- Settles O14: sum and differences are those of the numbers, modulo 65536. -/
theorem registerSumDifferenceResult : Obligations.RegisterSumDifferenceResult := by
  unfold Obligations.RegisterSumDifferenceResult
  exact ⟨wordForm_ofComp .addDA, gives_ofComp .addDA fun s => add_eq_w16 s.d s.a,
    wordForm_ofComp .subDA, gives_ofComp .subDA fun s => sub_eq_w16 s.d s.a,
    wordForm_ofComp .subAD, gives_ofComp .subAD fun s => sub_eq_w16 s.a s.d⟩

/-- Settles O15: the result is the bitwise operation on the two registers. -/
theorem registerAndOrResult : Obligations.RegisterAndOrResult := by
  unfold Obligations.RegisterAndOrResult
  exact ⟨⟨wordForm_ofComp .andDA, fun s => s.d &&& s.a, gives_ofComp .andDA fun _ => rfl,
      fun _ _ => BitVec.getLsbD_and⟩,
    ⟨wordForm_ofComp .orDA, fun s => s.d ||| s.a, gives_ofComp .orDA fun _ => rfl,
      fun _ _ => BitVec.getLsbD_or⟩⟩

/-! ### The statements of 43_comp_memory.md -/

/-- Settles O16: as for the registers, over the word at A. -/
theorem memoryPassComplementNegateResult : Obligations.MemoryPassComplementNegateResult := by
  unfold Obligations.MemoryPassComplementNegateResult
  exact ⟨wordForm_ofComp .passM, gives_ofComp .passM fun _ => rfl,
    wordForm_ofComp .notM, gives_ofComp .notM fun s => not_eq_w16 (mOld s),
    wordForm_ofComp .negM, gives_ofComp .negM fun s => neg_eq_w16 (mOld s)⟩

/-- Settles O17: `M-1` subtracts; only `D-1` and `A-1` go through `decrement`. -/
theorem memoryIncrementDecrementResult : Obligations.MemoryIncrementDecrementResult := by
  unfold Obligations.MemoryIncrementDecrementResult
  exact ⟨wordForm_ofComp .incM, gives_ofComp .incM fun s => (w16_succ (mOld s)).symm,
    wordForm_ofComp .decM, gives_ofComp .decM fun s => pred_eq_w16 (mOld s)⟩

/-- Settles O18: sum and differences of D and the word at A, modulo 65536. -/
theorem memorySumDifferenceResult : Obligations.MemorySumDifferenceResult := by
  unfold Obligations.MemorySumDifferenceResult
  exact ⟨wordForm_ofComp .addDM, gives_ofComp .addDM fun s => add_eq_w16 s.d (mOld s),
    wordForm_ofComp .subDM, gives_ofComp .subDM fun s => sub_eq_w16 s.d (mOld s),
    wordForm_ofComp .subMD, gives_ofComp .subMD fun s => sub_eq_w16 (mOld s) s.d⟩

/-- Settles O19: the result is the bitwise operation on D and the word at A. -/
theorem memoryAndOrResult : Obligations.MemoryAndOrResult := by
  unfold Obligations.MemoryAndOrResult
  exact ⟨⟨wordForm_ofComp .andDM, fun s => s.d &&& mOld s, gives_ofComp .andDM fun _ => rfl,
      fun _ _ => BitVec.getLsbD_and⟩,
    ⟨wordForm_ofComp .orDM, fun s => s.d ||| mOld s, gives_ofComp .orDM fun _ => rfl,
      fun _ _ => BitVec.getLsbD_or⟩⟩

/-! ### The statements of 44_comp_shift.md -/

/-- Settles O20: `shl1` doubles, `shr1` halves the unsigned reading (R182). -/
theorem registerShiftResult : Obligations.RegisterShiftResult := by
  unfold Obligations.RegisterShiftResult
  exact ⟨wordForm_ofComp .shlA, gives_ofComp .shlA fun s => shl1_eq_w16 s.a,
    wordForm_ofComp .shlD, gives_ofComp .shlD fun s => shl1_eq_w16 s.d,
    wordForm_ofComp .shrA, gives_ofComp .shrA fun s => shr1_eq_w16 s.a,
    wordForm_ofComp .shrD, gives_ofComp .shrD fun s => shr1_eq_w16 s.d⟩

/-- Settles O21: the two shifts over the word at A. -/
theorem memoryShiftResult : Obligations.MemoryShiftResult := by
  unfold Obligations.MemoryShiftResult
  exact ⟨wordForm_ofComp .shlM, gives_ofComp .shlM fun s => shl1_eq_w16 (mOld s),
    wordForm_ofComp .shrM, gives_ofComp .shrM fun s => shr1_eq_w16 (mOld s)⟩

end Sys2Proof.Machine
end

section
/-! SUPPORT. The sequencer: what the two checks leave, a step that retires, breakpoints, single step and
batches. -/

namespace Sys2Proof.Machine

/-! ### The checks (R222) -/

@[simp] theorem checkBound_pc (s : State) : (checkBound s).pc = if slotValid s.pc then s.pc else 32766#16 := by
  unfold checkBound; split <;> rfl

@[simp] theorem checkBound_stopped (s : State) :
    (checkBound s).stopped = ⟨s.stopped.pcOverflow || !slotValid s.pc, s.stopped.breakpoint⟩ := by
  unfold checkBound; split <;> simp [*]

@[simp] theorem checkBreakpoints_pcOverflow (mode : StepMode) (s : State) :
    (checkBreakpoints mode s).stopped.pcOverflow = s.stopped.pcOverflow := by
  rcases checkBreakpoints_cases mode s with h | h <;> simp [h]

/-- Settles O38: `holds` compares the component the predicate names; `MemRead` raises above 24576. -/
theorem breakpointMatchesByValue : Obligations.BreakpointMatchesByValue := by
  unfold Obligations.BreakpointMatchesByValue
  intro s b
  cases b with
  | A v => simp [Breakpoint.holds, Matches]
  | D v => simp [Breakpoint.holds, Matches]
  | PC n => simp [Breakpoint.holds, Matches]
  | RAM address v => simp [Breakpoint.holds, Matches, memRead_eq, Word.u16]

theorem matches_congr {s s' : State} (ha : s.a = s'.a) (hd : s.d = s'.d) (hpc : s.pc = s'.pc) (hram : s.ram = s'.ram)
    (b : Breakpoint) : Matches s b ↔ Matches s' b := by
  cases b <;> simp [Matches, ha, hd, hpc, hram]

theorem checkBreakpoints_breakpoint (s : State) : (checkBreakpoints .batched s).stopped.breakpoint = true ↔
    s.stopped.breakpoint = true ∨ ∃ b ∈ s.bp, Matches s b := by
  have hany : s.bp.any (Breakpoint.holds s) = true ↔ ∃ b ∈ s.bp, Matches s b := by
    simp only [List.any_eq_true, breakpointMatchesByValue s]
  rw [← hany, checkBreakpoints]
  split <;> simp [*]

/-- The checks of R222 on a state in which nothing has stopped the run yet, bound first. -/
theorem checksMade {t : State} (hstop : t.stopped = .empty) :
    ChecksMade t (checkBreakpoints .batched (checkBound t)) := by
  refine ⟨⟨by simp, by simp, by simp, by simp, by simp, by simp, by simp⟩, fun hpc => ?_, fun hpc => ?_, ?_⟩
  · simp [(slotValid_iff t.pc).mpr hpc, hstop, StopReasons.empty]
  · have hbad : slotValid t.pc = false := by
      rw [← Bool.not_eq_true, slotValid_iff]
      exact Nat.not_le.mpr hpc
    simp [hbad]
  · rw [checkBreakpoints_breakpoint, checkBound_stopped, hstop, checkBreakpoints_bp]
    simp only [StopReasons.empty, Bool.false_eq_true, false_or]
    have hm := matches_congr (s := checkBreakpoints .batched (checkBound t)) (s' := checkBound t)
      (by simp) (by simp) (by simp) (by simp)
    simp only [hm]

theorem afterExec_of_faulted (mode : StepMode) {t : State} (h : t.fault ≠ .noFault) : afterExec mode t = t := by
  simp [afterExec, h]

theorem afterExec_of_not_faulted (mode : StepMode) {t : State} (h : t.fault = .noFault) :
    afterExec mode t = checkBreakpoints mode (checkBound t) := by
  simp [afterExec, h]

/-! ### One step -/

theorem execSlot_frame {x : Slot} {s t : State} (h : execSlot x s = .next t) :
    t.imem = s.imem ∧ t.bp = s.bp ∧ t.stopped = s.stopped ∧ t.symbols = s.symbols := by
  cases x with
  | instr i => exact exec_frame h
  | illegal w =>
    obtain rfl := Host.Outcome.next.inj h
    exact ⟨rfl, rfl, rfl, rfl⟩

/-- From a runnable state the core executes the fetched slot and makes the checks (R220). -/
theorem coreStep_of_runnable (mode : StepMode) {s t : State} (hf : s.fault = .noFault) (hpc : slotValid s.pc = true)
    (h : execSlot (fetch s) s = .next t) : coreStep mode s = .next (afterExec mode t) := by
  rcases coreStep_cases mode s with ⟨hbad, -⟩ | ⟨-, hbad, -⟩ | ⟨-, -, t', ht', hstep⟩
  · exact absurd hf hbad
  · simp [hpc] at hbad
  · rw [Host.Outcome.next.inj (h.symm.trans ht'), hstep]

/-- The same of `step`, which empties `stopped` first (log 4). -/
theorem step_of_runnable {s t : State} {x : Slot} (hf : s.fault = .noFault) (hpc : s.pc.u16 ≤ 32766)
    (hx : fetch s = x) (h : execSlot x s.clearStopped = .next t) : step s = .next (afterExec .batched t) := by
  subst hx
  exact coreStep_of_runnable .batched (s := s.clearStopped) hf ((slotValid_iff s.pc).mpr hpc) h

/-- A core step that answers a next state was made from a runnable state (R220). -/
theorem coreStep_next {mode : StepMode} {s u : State} (h : coreStep mode s = .next u) :
    s.fault = .noFault ∧ slotValid s.pc = true ∧ ∃ t, execSlot (fetch s) s = .next t ∧ u = afterExec mode t := by
  rcases coreStep_cases mode s with ⟨-, hstep⟩ | ⟨-, -, hstep⟩ | ⟨hf, hpc, t, ht, hstep⟩
  · simp [hstep] at h
  · simp [hstep] at h
  · rw [hstep] at h
    exact ⟨hf, hpc, t, ht, (Host.Outcome.next.inj h).symm⟩

/-- A step that raises no fault executed the fetched slot and made both checks (R222). -/
theorem step_retired {s u : State} (h : step s = .next u) (hu : u.fault = .noFault) :
    ∃ t, execSlot (fetch s) s.clearStopped = .next t ∧ t.bp = s.bp ∧ ChecksMade t u := by
  obtain ⟨-, -, t, ht, rfl⟩ := coreStep_next h
  obtain ⟨-, hbp, hstop, -⟩ := execSlot_frame ht
  rw [afterExec_fault] at hu
  exact ⟨t, ht, hbp, by rw [afterExec_of_not_faulted _ hu]; exact checksMade hstop⟩

/-- A step from a slot that holds an instruction: the fault ends it, or the checks are made (R220 to R222). -/
theorem step_instr {s t : State} {i : Instr} (hf : s.fault = .noFault) (hpc : s.pc.u16 ≤ 32766)
    (hi : fetch s = .instr i) (ht : exec i s.clearStopped = .next t) :
    (t.fault ≠ .noFault ∧ step s = .next t) ∨ (t.fault = .noFault ∧ ∃ u, step s = .next u ∧ ChecksMade t u) := by
  have hstep := step_of_runnable hf hpc hi ht
  by_cases hft : t.fault = .noFault
  · rw [afterExec_of_not_faulted _ hft] at hstep
    obtain ⟨-, -, hstop, -⟩ := exec_frame ht
    exact .inr ⟨hft, _, hstep, checksMade hstop⟩
  · rw [afterExec_of_faulted _ hft] at hstep
    exact .inl ⟨hft, hstep⟩

/-- Settles O33: `exec` always answers a next state, and `step_instr` says what follows it. -/
theorem stepRunsFetchedInstruction : Obligations.StepRunsFetchedInstruction := by
  unfold Obligations.StepRunsFetchedInstruction
  intro s i hf hpc hi
  obtain ⟨t, ht⟩ := exec_isNext i s.clearStopped
  exact ⟨t, ht, step_instr hf hpc hi ht⟩

/-- Settles O34: the placed word is decoded into the slot pc names, and a write to a slot is to no other. -/
theorem placedWordIsFetched : Obligations.PlacedWordIsFetched := by
  unfold Obligations.PlacedWordIsFetched
  intro s w i hw hpc hi
  have hpc : slotValid s.pc = true := (slotValid_iff s.pc).mpr hpc
  have hword : tableWord 16 w = BitVec.ofNat 16 w := by rw [tableWord, Nat.mod_eq_of_lt (show w < 2 ^ 16 from hw)]
  have hplace : s.withFetchWord 16 w = { s with imem := InstrMemory.write s.imem s.pc.u16 (.instr i) } := by
    rw [State.withFetchWord, placeWord, if_pos hpc, hword, hi]
  rw [hplace, decodeTableWord, hword, hi]
  exact ⟨InstrMemory.read_write_same .., rfl, rfl, fun j hj => Cells.read_write_other _ _ _ hj⟩

theorem step_of_faulted {s : State} (h : s.fault ≠ .noFault) : step s = .fault (.halted s.fault) := by
  rcases coreStep_cases .batched s.clearStopped with ⟨-, hstep⟩ | ⟨hf, -⟩ | ⟨hf, -⟩
  · exact hstep
  · exact absurd hf h
  · exact absurd hf h

/-- Settles O35: `Exec` on the slot raises (R231), no check follows, and the latch stops the next step. -/
theorem illegalWordRaises : Obligations.IllegalWordRaises := by
  unfold Obligations.IllegalWordRaises
  intro s w hf hpc hw
  have hstep := step_of_runnable hf hpc hw (t := s.clearStopped.raise (.illegalInstruction w)) rfl
  rw [afterExec_of_faulted _ (by simp)] at hstep
  exact ⟨_, hstep, rfl, step_of_faulted (by simp)⟩

/-- Settles O36: the three ways a core step ends, by the latch and the range of pc. -/
theorem stepExistsExactlyWhenRunnable : Obligations.StepExistsExactlyWhenRunnable := by
  unfold Obligations.StepExistsExactlyWhenRunnable
  intro s
  refine ⟨⟨fun ⟨t, h⟩ => ?_, fun ⟨hf, hpc⟩ => ?_⟩, step_of_faulted, fun hf hpc => ?_⟩
  · obtain ⟨hf, hpc, -⟩ := coreStep_next h
    exact ⟨hf, (slotValid_iff s.pc).mp hpc⟩
  · obtain ⟨t, ht⟩ := execSlot_isNext (fetch s.clearStopped) s.clearStopped
    exact ⟨_, step_of_runnable hf hpc rfl ht⟩
  · rcases coreStep_cases .batched s.clearStopped with ⟨hbad, -⟩ | ⟨-, -, hstep⟩ | ⟨-, hbad, -⟩
    · exact absurd hf hbad
    · exact hstep
    · exact absurd ((slotValid_iff s.pc).mp hbad) (Nat.not_le.mpr hpc)

theorem SameButPcStopped.restore {s t : State} (h : SameButPcStopped s t) :
    { t with pc := s.pc, stopped := s.stopped } = s := by
  obtain ⟨ha, hd, hram, himem, hbp, hf, hsym⟩ := h
  rw [ha, hd, hram, himem, hbp, hf, hsym]

/-- Settles O37: the bound check of `ChecksMade`; a pc that large is the advance from 32766 or A. -/
theorem pcOverflowClampsAndStops : Obligations.PcOverflowClampsAndStops := by
  unfold Obligations.PcOverflowClampsAndStops
  intro s i t hf hpc hi ht hft
  obtain ⟨hbad, -⟩ | ⟨-, u, hstep, hsame, hin, hout, -⟩ := step_instr hf hpc hi ht
  · exact absurd hft hbad
  refine ⟨u, hstep, ⟨fun hu => ?_, fun hover => (hout hover).2⟩, fun hover => ⟨?_, (hout hover).1, hsame.restore⟩⟩
  · by_contra hlow
    simp [(hin (by omega)).2] at hu
  · rcases exec_pc ht with ⟨-, hraise⟩ | hadv | hjump
    · simp [hraise] at hft
    · have hsucc : t.pc.toNat = (s.pc.toNat + 1) % 65536 := by rw [hadv]; exact BitVec.toNat_add ..
      simp only [Word.u16] at hpc hover
      refine .inl ⟨BitVec.eq_of_toNat_eq ?_, BitVec.eq_of_toNat_eq ?_⟩
      · rw [BitVec.toNat_ofNat]; omega
      · rw [BitVec.toNat_ofNat]; omega
    · exact .inr hjump

/-! ### Batches (R223) -/

theorem batchSteps_of_ended {s : State} (h : s.runEnded = true) (n : Nat) : batchSteps n s = s := by
  cases n with
  | zero => rfl
  | succ n => exact if_pos h

theorem batchSteps_succ_of_next {s t : State} (hs : s.runEnded = false) (h : coreStep .batched s = .next t) (n : Nat) :
    batchSteps (n + 1) s = batchSteps n t := by
  rw [batchSteps, if_neg (by rw [← State.runEnded, hs]; exact Bool.false_ne_true), h]

theorem batchSteps_of_fault {s : State} {f : Fault} (h : coreStep .batched s = .fault f) (n : Nat) :
    batchSteps n s = s := by
  cases n with
  | zero => rfl
  | succ n =>
    rw [batchSteps, h]
    exact ite_self s

/-- A batch makes no step at all, or is one core step and the rest of the batch. -/
theorem batchSteps_cases (s : State) : (∀ n, batchSteps n s = s) ∨
    ∃ t, coreStep .batched s = .next t ∧ ∀ n, batchSteps (n + 1) s = batchSteps n t := by
  cases hend : s.runEnded with
  | true => exact .inl (batchSteps_of_ended hend)
  | false =>
    rcases coreStep_cases .batched s with ⟨-, h⟩ | ⟨-, -, h⟩ | ⟨-, -, t, -, h⟩
    · exact .inl (batchSteps_of_fault h)
    · exact .inl (batchSteps_of_fault h)
    · exact .inr ⟨_, h, batchSteps_succ_of_next hend h⟩

theorem batchSteps_add (n m : Nat) (s : State) : batchSteps (n + m) s = batchSteps m (batchSteps n s) := by
  induction n generalizing s with
  | zero => rw [Nat.zero_add, batchSteps]
  | succ n ih =>
    rcases batchSteps_cases s with h | ⟨t, -, h⟩
    · rw [h, h, h]
    · rw [Nat.add_right_comm, h, h, ih]

/-- What every core step of a batch keeps, the batch keeps. -/
theorem batchSteps_induction {P : State → Prop} (hstep : ∀ s t, P s → coreStep .batched s = .next t → P t) (n : Nat)
    {s : State} (hs : P s) : P (batchSteps n s) := by
  induction n generalizing s with
  | zero => exact hs
  | succ n ih =>
    rcases batchSteps_cases s with h | ⟨t, ht, h⟩
    · rw [h]
      exact hs
    · rw [h]
      exact ih (hstep _ _ hs ht)

/-- Settles O42: a batch of `n + m` steps is one of `n` and one of `m` (`batchSteps_add`); clearing `stopped`
between them changes nothing, since a run that has not ended has no stop recorded. -/
theorem batchesCompose : Obligations.BatchesCompose := by
  unfold Obligations.BatchesCompose
  intro n m s
  have hadd : runBatch (n + m) s = batchSteps m (runBatch n s) := batchSteps_add n m s.clearStopped
  rw [hadd]
  split
  case isTrue hend => exact batchSteps_of_ended hend m
  case isFalse hend =>
    have hany : (runBatch n s).stopped.any = false := by
      simp only [State.runEnded, Bool.or_eq_true, not_or, Bool.not_eq_true] at hend
      exact hend.1
    rw [runBatch.eq_1 m, State.clearStopped_of_not_any _ hany]

/-! ### Breakpoints (R240 to R244) -/

/-- Settles O39: `ChecksMade` says when the reason is recorded, and that pc is then a slot. -/
theorem pcBreakpointStopsAtTarget : Obligations.PcBreakpointStopsAtTarget := by
  unfold Obligations.PcBreakpointStopsAtTarget
  intro s n u hmem hstep hu
  obtain ⟨t, -, htbp, ⟨-, -, -, -, hubp, -, -⟩, hin, hout, hbreak⟩ := step_retired hstep hu
  have hbp : u.bp = s.bp := hubp.trans htbp
  rw [hbp] at hbreak
  refine ⟨fun hpc => ?_, fun hset hstop => ?_, fun hn hm => ?_⟩
  · have hstop := hbreak.mpr ⟨.PC n, hmem, hpc⟩
    exact ⟨hstop, batchSteps_of_ended (by simp [State.runEnded, StopReasons.any, hstop])⟩
  · obtain ⟨b, hb, hmatch⟩ := hbreak.mp hstop
    rw [hset, List.mem_singleton] at hb
    subst hb
    exact hmatch
  · have hupc : u.pc = n := hm
    rcases Nat.lt_or_ge 32766 t.pc.u16 with hover | hlow
    · rw [(hout hover).1] at hupc
      subst hupc
      exact absurd hn (by decide)
    · rw [(hin hlow).1] at hupc
      subst hupc
      omega

section setBp
variable (bp : List Breakpoint)

theorem store_setBp (dest : Dest) (addr r : Word) (s : State) :
    store dest addr r { s with bp := bp } = { store dest addr r s with bp := bp } := by
  cases dest <;> rfl

theorem decidePc_setBp (jump : Jump) (r : Word) (s : State) :
    decidePc jump r { s with bp := bp } = { decidePc jump r s with bp := bp } := by
  unfold decidePc; split <;> rfl

theorem exec_setBp {i : Instr} {s t : State} (h : exec i s = .next t) :
    exec i { s with bp := bp } = .next { t with bp := bp } := by
  rcases exec_cases h with ⟨c, dest, jump, rfl, hr, rfl⟩ | ⟨c, dest, jump, rfl, hr, rfl⟩ | ⟨v, rfl, rfl⟩ |
    ⟨rfl | rfl, rfl⟩
  · exact exec_ofComp_of_not_reaches (s := { s with bp := bp }) jump hr
  · rw [← decidePc_setBp, ← store_setBp]
    exact exec_ofComp_of_reaches (s := { s with bp := bp }) jump hr
  · rfl
  · rfl
  · rfl

theorem execSlot_setBp {x : Slot} {s t : State} (h : execSlot x s = .next t) :
    execSlot x { s with bp := bp } = .next { t with bp := bp } := by
  cases x with
  | instr i => exact exec_setBp bp h
  | illegal w =>
    obtain rfl := Host.Outcome.next.inj h
    rfl

end setBp

theorem State.restore_bp_stopped {u u' : State} (ha : u'.a = u.a) (hd : u'.d = u.d) (hpc : u'.pc = u.pc)
    (hram : u'.ram = u.ram) (himem : u'.imem = u.imem) (hf : u'.fault = u.fault) (hsym : u'.symbols = u.symbols) :
    { u' with bp := u.bp, stopped := u.stopped } = u := by
  rw [ha, hd, hpc, hram, himem, hf, hsym]

/-- Settles O40: `Exec` and the bound check commute with another breakpoint set; the breakpoint check touches
its own reason only. -/
theorem breakpointsDoNotCompute : Obligations.BreakpointsDoNotCompute := by
  unfold Obligations.BreakpointsDoNotCompute
  intro s bp u h
  obtain ⟨hf, hpc, t, ht, rfl⟩ := coreStep_next h
  have hstep' := coreStep_of_runnable .batched (s := { s.clearStopped with bp := bp }) hf hpc (execSlot_setBp bp ht)
  refine ⟨_, hstep', ?_⟩
  by_cases hft : t.fault = .noFault
  · rw [afterExec_of_not_faulted _ hft, afterExec_of_not_faulted (t := { t with bp := bp }) _ hft]
    refine ⟨by simp, by simp, by simp, State.restore_bp_stopped ?_ ?_ ?_ ?_ ?_ ?_ ?_⟩
    all_goals simp
  · rw [afterExec_of_faulted _ hft, afterExec_of_faulted (t := { t with bp := bp }) _ hft]
    exact ⟨rfl, rfl, rfl, rfl⟩

/-- The checks of a single step are those of a batched one without the reason `Breakpoint` (R225). -/
theorem afterExec_single {t : State} (hstop : t.stopped = .empty) : afterExec .single t =
    { afterExec .batched t with stopped := { (afterExec .batched t).stopped with breakpoint := false } } := by
  by_cases hft : t.fault = .noFault
  · rw [afterExec_of_not_faulted _ hft, afterExec_of_not_faulted _ hft]
    have hclear : (checkBound t).stopped.breakpoint = false := by rw [checkBound_stopped, hstop]; rfl
    rcases checkBreakpoints_cases .batched (checkBound t) with h | h
    · rw [h, ← hclear]
      rfl
    · rw [h, State.stopBreakpoint, ← hclear]
      rfl
  · have hclear : (⟨t.stopped.pcOverflow, false⟩ : StopReasons) = t.stopped := by rw [hstop]; rfl
    rw [afterExec_of_faulted _ hft, afterExec_of_faulted _ hft, hclear]

/-- Settles O41: both modes execute the same slot on the same state, and `afterExec_single` compares the checks. -/
theorem singleStepSkipsBreakpoints : Obligations.SingleStepSkipsBreakpoints := by
  unfold Obligations.SingleStepSkipsBreakpoints
  intro s u h
  obtain ⟨hf, hpc, t, ht, rfl⟩ := coreStep_next h
  obtain ⟨-, -, hstop, -⟩ := execSlot_frame ht
  rw [singleStep, coreStep_of_runnable .single hf hpc ht]
  exact afterExec_single hstop

/-! ### Running off the end (R132, R275) -/

/-- Through slots that hold `NONE` a batch walks to the bound, one slot a step. -/
theorem batchSteps_of_noneOps (n : Nat) {s : State} (hf : s.fault = .noFault) (hbp : s.bp = [])
    (hstop : s.stopped = .empty) (hpc : s.pc.toNat ≤ 32766)
    (hslots : ∀ i : Nat, s.pc.toNat ≤ i → i ≤ 32766 → InstrMemory.read s.imem i = .instr .noneOp)
    (hn : 32767 - s.pc.toNat ≤ n) : batchSteps n s = { s with pc := 32766#16, stopped := ⟨true, false⟩ } := by
  induction n generalizing s with
  | zero => omega
  | succ n ih =>
    have hrun : s.runEnded = false := by simp [State.runEnded, hstop, hf]
    have hstep : coreStep .batched s = .next (afterExec .batched s.advance) := by
      refine coreStep_of_runnable .batched hf ((slotValid_iff s.pc).mpr hpc) ?_
      rw [show fetch s = .instr .noneOp from hslots _ le_rfl hpc]
      rfl
    have hsucc : (s.pc + 1#16).toNat = s.pc.toNat + 1 := by
      rw [BitVec.toNat_add, BitVec.toNat_ofNat]
      omega
    have hnext : afterExec .batched s.advance = checkBound s.advance := by
      rw [afterExec_of_not_faulted _ (by simpa using hf)]
      simp [checkBreakpoints, hbp]
    rw [batchSteps_succ_of_next hrun hstep, hnext]
    by_cases hlast : s.pc.toNat = 32766
    · have hbad : slotValid s.advance.pc = false := by
        rw [← Bool.not_eq_true, slotValid_iff, State.advance_pc]
        omega
      rw [checkBound_of_not_valid hbad, batchSteps_of_ended (by simp [State.runEnded, StopReasons.any])]
      simp only [State.stopPcOverflow, State.setPc, State.advance, hstop, StopReasons.empty]
    · have hok : slotValid s.advance.pc = true := by
        rw [slotValid_iff, State.advance_pc]
        omega
      rw [checkBound_of_valid hok]
      refine ih (s := s.advance) hf hbp hstop ?_ (fun i hi hi' => ?_) ?_
      · rw [State.advance_pc]; omega
      · rw [State.advance_pc] at hi
        exact hslots i (by omega) hi'
      · rw [State.advance_pc]; omega

/-- Settles O43: the batch starts with `stopped` cleared. -/
theorem runOffTheEndStops : Obligations.RunOffTheEndStops := by
  unfold Obligations.RunOffTheEndStops
  intro n s hf hbp hpc hslots hn
  exact batchSteps_of_noneOps n (s := s.clearStopped) hf hbp rfl hpc hslots hn

end Sys2Proof.Machine
end

section
/-! SUPPORT. The tables kept in order: a canonical sparse array is determined by its reads, and the
breakpoint set is a set. -/

namespace Sys2Proof.Machine

/-! ### Canonical arrays (R29, log 1) -/

section cells
variable {α : Type} {dflt : α}

/-- In an array with strictly rising indices every entry is the one read. -/
theorem Cells.read_of_mem {cells : Cells α} (hs : List.Pairwise (fun c c' : Nat × α => c.1 < c'.1) cells)
    {i : Nat} {v : α} (h : (i, v) ∈ cells) : Cells.read dflt cells i = v := by
  induction cells with
  | nil => simp at h
  | cons c rest ih =>
    obtain ⟨hfirst, hrest⟩ := List.pairwise_cons.mp hs
    rw [Cells.read_cons]
    rcases List.mem_cons.mp h with rfl | h
    · exact if_pos rfl
    · rw [if_neg (Nat.ne_of_lt (hfirst _ h))]
      exact ih hrest h

/-- What a read answers is listed, or is what an unlisted index holds. -/
theorem Cells.mem_of_read (cells : Cells α) (i : Nat) :
    (i, Cells.read dflt cells i) ∈ cells ∨ Cells.read dflt cells i = dflt := by
  induction cells with
  | nil => exact .inr rfl
  | cons c rest ih =>
    obtain ⟨k, v⟩ := c
    rw [Cells.read_cons]
    split
    case isTrue h => exact .inl (by simp [h])
    case isFalse => exact ih.imp_left (List.mem_cons_of_mem _)

variable [DecidableEq α]

/-- The entries of a canonical array are its indices that do not read as unlisted. -/
theorem Cells.mem_iff_of_wf {bound : Nat} {cells : Cells α} (hw : Cells.wf dflt bound cells = true) (c : Nat × α) :
    c ∈ cells ↔ c.1 < bound ∧ c.2 ≠ dflt ∧ Cells.read dflt cells c.1 = c.2 := by
  obtain ⟨hs, hall⟩ := (Cells.wf_iff dflt).mp hw
  constructor
  · intro h
    exact ⟨(hall c h).1, (hall c h).2, Cells.read_of_mem hs h⟩
  · rintro ⟨-, hne, hread⟩
    have hmem := (Cells.mem_of_read (dflt := dflt) cells c.1).resolve_right (hread ▸ hne)
    rwa [hread] at hmem

/-- Canonical arrays with the same reads are the same list. -/
theorem Cells.eq_of_read_eq {bound : Nat} {cells cells' : Cells α} (hw : Cells.wf dflt bound cells = true)
    (hw' : Cells.wf dflt bound cells' = true)
    (h : ∀ i, i < bound → Cells.read dflt cells i = Cells.read dflt cells' i) : cells = cells' := by
  have hirrefl : Std.Irrefl fun c c' : Nat × α => c.1 < c'.1 := ⟨fun c => Nat.lt_irrefl c.1⟩
  have hantisymm : Std.Antisymm fun c c' : Nat × α => c.1 < c'.1 := ⟨fun _ _ h h' => absurd h (Nat.lt_asymm h')⟩
  refine ((Cells.wf_iff dflt).mp hw).1.eq_of_mem_iff ((Cells.wf_iff dflt).mp hw').1 fun c => ?_
  rw [Cells.mem_iff_of_wf hw, Cells.mem_iff_of_wf hw']
  exact and_congr_right fun hc => by rw [h c.1 hc]

end cells

/-- Settles O32: every index below the bound is the number of an address. -/
theorem memoryEqualIfReadsEqual : Obligations.MemoryEqualIfReadsEqual := by
  unfold Obligations.MemoryEqualIfReadsEqual
  intro m m' hw hw' h
  refine Cells.eq_of_read_eq hw hw' fun i hi => ?_
  have hi : i < 24577 := hi
  have hnum : (BitVec.ofNat 16 i).toNat = i := by rw [BitVec.toNat_ofNat]; omega
  have hread := h (BitVec.ofNat 16 i) (by rw [Word.u16, hnum]; omega)
  rwa [Memory.read, Memory.read, Word.u16, hnum] at hread

/-! ### The breakpoint set (R243) -/

theorem mem_insertBreakpoint {b c : Breakpoint} {bp : List Breakpoint} :
    c ∈ insertBreakpoint b bp ↔ c = b ∨ c ∈ bp := by
  induction bp with
  | nil => simp [insertBreakpoint]
  | cons d rest ih =>
    rw [insertBreakpoint]
    split
    case isTrue hbd => simp [hbd]
    case isFalse =>
      split
      · simp
      · simp [ih, or_left_comm]

theorem insertBreakpoint_idem (b : Breakpoint) (bp : List Breakpoint) :
    insertBreakpoint b (insertBreakpoint b bp) = insertBreakpoint b bp := by
  induction bp with
  | nil => simp [insertBreakpoint]
  | cons d rest ih =>
    by_cases hbd : b = d
    · simp [insertBreakpoint, hbd]
    · by_cases hkey : b.key < d.key
      · simp [insertBreakpoint, hbd, hkey]
      · simp [insertBreakpoint, hbd, hkey, ih]

/-- Insertion keeps the form of the set: a new predicate goes before the first larger key. -/
theorem breakpointsWf_insert {bp : List Breakpoint} (h : breakpointsWf bp = true) (b : Breakpoint) :
    breakpointsWf (insertBreakpoint b bp) = true := by
  simp only [breakpointsWf, decide_eq_true_eq] at h ⊢
  induction bp with
  | nil => simp [insertBreakpoint]
  | cons d rest ih =>
    obtain ⟨hfirst, hrest⟩ := List.pairwise_cons.mp h
    rw [insertBreakpoint]
    split
    case isTrue => exact h
    case isFalse hbd =>
      split
      case isTrue hkey =>
        refine List.pairwise_cons.mpr ⟨fun c hc => ?_, h⟩
        rcases List.mem_cons.mp hc with rfl | hc
        · exact hkey
        · exact Nat.lt_trans hkey (hfirst c hc)
      case isFalse hkey =>
        refine List.pairwise_cons.mpr ⟨fun c hc => ?_, ih hrest⟩
        rcases mem_insertBreakpoint.mp hc with rfl | hc
        · exact Nat.lt_of_le_of_ne (Nat.not_lt.mp hkey) fun e => hbd (Breakpoint.key_inj e.symm)
        · exact hfirst c hc

/-- Settles O56: membership after insertion and removal, and insertion twice. -/
theorem breakpointSetInsertRemove : Obligations.BreakpointSetInsertRemove := by
  unfold Obligations.BreakpointSetInsertRemove
  intro b b' bp
  refine ⟨mem_insertBreakpoint, insertBreakpoint_idem b bp, ?_⟩
  simp [removeBreakpoint]

end Sys2Proof.Machine
end

section
/-! SUPPORT. The assembler: what each phase answers when it answers, and the form of the table it leaves. -/

namespace Sys2Proof.Machine

/-! ### The symbol table keeps its form (N22) -/

theorem SymbolTable.wf_insertIfAbsent {t : SymbolTable} (ht : SymbolTable.wf t = true) (name : Text) :
    SymbolTable.wf (t.insertIfAbsent name) = true := by
  unfold SymbolTable.insertIfAbsent
  split
  case isTrue => exact ht
  case isFalse hnew =>
    have hnew : (t.lookup name).isSome = false := by simpa using hnew
    split
    · exact SymbolTable.wf_bind ht _ hnew
    · exact SymbolTable.wf_bind ht t.cursor hnew

theorem bindLabels_wf {ls : List CleanLine} {k seen : Nat} {t t' : SymbolTable} (ht : SymbolTable.wf t = true)
    (h : bindLabels ls k seen t = .ok t') : SymbolTable.wf t' = true := by
  induction ls generalizing k seen t with
  | nil =>
    obtain rfl := Except.ok.inj h
    exact ht
  | cons l rest ih =>
    rw [bindLabels] at h
    split at h
    case h_1 name =>
      split at h
      case isTrue => simp at h
      case isFalse hnew =>
        simp only [Bool.or_eq_true, not_or, Bool.not_eq_true] at hnew
        exact ih (SymbolTable.wf_bind ht _ hnew.2) h
    case h_2 => exact ih ht h
    case h_3 => exact ih ht h

theorem bindVariables_wf {ls : List CleanLine} {k : Nat} {t t' : SymbolTable} (ht : SymbolTable.wf t = true)
    (h : bindVariables ls k t = .ok t') : SymbolTable.wf t' = true := by
  induction ls generalizing k t with
  | nil =>
    obtain rfl := Except.ok.inj h
    exact ht
  | cons l rest ih =>
    rw [bindVariables] at h
    split at h
    case h_1 => exact ih ht h
    case h_2 operand _ =>
      split at h
      case isTrue => simp at h
      case isFalse => exact ih (SymbolTable.wf_insertIfAbsent ht operand) h
    case h_3 => exact ih ht h

/-! ### Phase 3 (R112 to R120) -/

/-- An instruction the assembler may emit: it has a 16-bit word and is neither no-operation (R112, R114). -/
def Emittable (i : Instr) : Prop := Instr.wf i = true ∧ i ≠ .noneOp ∧ i ≠ .labelOp

theorem emittable_ofComp (c : Comp) (dest : Dest) (jump : Jump) : Emittable (.ofComp c dest jump) := by
  cases c <;> exact ⟨rfl, nofun, nofun⟩

theorem computeOf_emittable {dest comp jump : Text} {i : Instr} (h : computeOf dest comp jump = some i) :
    Emittable i := by
  unfold computeOf at h
  split at h
  · obtain rfl := Option.some.inj h
    exact emittable_ofComp ..
  · simp at h

/-- A compute line that assembles is one of the grammar's shapes, and answers what its texts name (R115). -/
theorem parseCompute_ok {quirk : Bool} {t : SymbolTable} {k : Nat} {l : CleanLine} {i : Instr}
    (h : parseCompute quirk t k l = .ok i) : ∃ dest comp jump, computeOf dest comp jump = some i := by
  have hanswer : ∀ dest comp jump, (match computeOf dest comp jump with
      | some i => Except.ok i
      | none => .error (AsmError.invalidLine k l.original)) = .ok i →
      ∃ dest comp jump, computeOf dest comp jump = some i := by
    intro dest comp jump hx
    split at hx
    case h_1 heq => exact ⟨dest, comp, jump, heq.trans (congrArg some (Except.ok.inj hx))⟩
    case h_2 => simp at hx
  unfold parseCompute at h
  dsimp only at h
  split at h
  · exact hanswer _ _ _ h
  · split at h
    · simp at h
    · split at h
      · exact hanswer _ _ _ h
      · split at h
        · exact hanswer _ _ _ h
        · simp at h
  · split at h
    · simp at h
    · split at h
      · split at h <;> simp at h
      · split at h
        · exact hanswer _ _ _ h
        · simp at h
  · simp at h

theorem parseAddress_emittable {t : SymbolTable} {k : Nat} {l : CleanLine} {operand : Text} {i : Instr}
    (h : parseAddress t k l operand = .ok i) : Emittable i := by
  unfold parseAddress at h
  split at h
  · simp at h
  · split at h
    · simp at h
    case isFalse v _ hv =>
      obtain rfl := Except.ok.inj h
      have hmsb : v.msb = false := by rw [BitVec.msb_eq_getLsbD_last]; simpa using hv
      exact ⟨by simp [Instr.wf, hmsb], nofun, nofun⟩

/-- A line phase 3 gives an instruction for: any but a label line (R112). -/
def CleanLine.emits (l : CleanLine) : Bool :=
  match lineKind l.text with
  | .label _ => false
  | .address _ => true
  | .compute => true

theorem emit_cons_ok {quirk : Bool} {t : SymbolTable} {l : CleanLine} {rest : List CleanLine} {k : Nat}
    {prog : List Instr} (h : emit quirk t (l :: rest) k = .ok prog) :
    (l.emits = false ∧ emit quirk t rest (k + 1) = .ok prog) ∨
    (l.emits = true ∧ ∃ i more, Emittable i ∧ emit quirk t rest (k + 1) = .ok more ∧ prog = i :: more) := by
  rw [emit] at h
  split at h
  case h_1 hkind => exact .inl ⟨by simp [CleanLine.emits, hkind], h⟩
  case h_2 operand hkind =>
    split at h
    case h_1 i more hi hmore =>
      exact .inr ⟨by simp [CleanLine.emits, hkind], i, more, parseAddress_emittable hi, hmore, (Except.ok.inj h).symm⟩
    all_goals simp at h
  case h_3 hkind =>
    split at h
    case h_1 i more hi hmore =>
      obtain ⟨dest, comp, jump, hof⟩ := parseCompute_ok hi
      exact .inr ⟨by simp [CleanLine.emits, hkind], i, more, computeOf_emittable hof, hmore, (Except.ok.inj h).symm⟩
    all_goals simp at h

/-- Phase 3 emits one instruction for each line that is no label line. -/
theorem emit_ok {quirk : Bool} {t : SymbolTable} {ls : List CleanLine} {k : Nat} {prog : List Instr}
    (h : emit quirk t ls k = .ok prog) :
    (∀ i ∈ prog, Emittable i) ∧ prog.length = (ls.filter CleanLine.emits).length := by
  induction ls generalizing k prog with
  | nil =>
    obtain rfl := Except.ok.inj h
    exact ⟨by simp, rfl⟩
  | cons l rest ih =>
    rcases emit_cons_ok h with ⟨hl, hrest⟩ | ⟨hl, i, more, hi, hrest, rfl⟩
    · rw [List.filter_cons_of_neg (by simp [hl])]
      exact ih hrest
    · obtain ⟨hall, hlen⟩ := ih hrest
      rw [List.filter_cons_of_pos hl, List.length_cons, List.length_cons, hlen]
      exact ⟨List.forall_mem_cons.mpr ⟨hi, hall⟩, rfl⟩

/-! ### The whole assembly (R105) -/

/-- An assembly that answers went through every phase. -/
theorem assembleWith_ok {quirk : Bool} {lines : List Text} {prog : List Instr} {table : SymbolTable}
    (h : assembleWith quirk lines = .ok (prog, table)) :
    lines.length ≤ 32767 ∧ ∃ labels, bindLabels (clean lines) 0 0 .fresh = .ok labels ∧
      bindVariables (clean lines) 0 labels = .ok table ∧ emit quirk table (clean lines) 0 = .ok prog := by
  unfold assembleWith at h
  split at h
  case isTrue => simp at h
  case isFalse hlen =>
    split at h
    case h_1 => simp at h
    case h_2 labels hlabels =>
      split at h
      case h_1 => simp at h
      case h_2 hvars =>
        split at h
        case h_1 => simp at h
        case h_2 hemit =>
          obtain ⟨rfl, rfl⟩ := Prod.mk.inj (Except.ok.inj h)
          exact ⟨Nat.not_lt.mp hlen, labels, hlabels, hvars, hemit⟩

/-- A program has no more instructions than the text has lines. -/
theorem assembleWith_length {quirk : Bool} {lines : List Text} {prog : List Instr} {table : SymbolTable}
    (h : assembleWith quirk lines = .ok (prog, table)) : prog.length ≤ 32767 := by
  obtain ⟨hlen, labels, -, -, hemit⟩ := assembleWith_ok h
  calc prog.length = ((clean lines).filter CleanLine.emits).length := (emit_ok hemit).2
    _ ≤ (clean lines).length := List.length_filter_le ..
    _ ≤ (lines.map fun l => CleanLine.mk (strip l) l).length := List.length_filter_le ..
    _ = lines.length := List.length_map ..
    _ ≤ 32767 := hlen

theorem assembleWith_table_wf {quirk : Bool} {lines : List Text} {prog : List Instr} {table : SymbolTable}
    (h : assembleWith quirk lines = .ok (prog, table)) : SymbolTable.wf table = true := by
  obtain ⟨-, labels, hlabels, hvars, -⟩ := assembleWith_ok h
  exact bindVariables_wf (bindLabels_wf SymbolTable.wf_fresh hlabels) hvars

/-- Settles O59: what `emit` answers. -/
theorem assembledProgramIsEncodable : Obligations.AssembledProgramIsEncodable := by
  unfold Obligations.AssembledProgramIsEncodable
  intro quirk lines prog table h
  obtain ⟨-, labels, -, -, hemit⟩ := assembleWith_ok h
  obtain ⟨hall, hlen⟩ := emit_ok hemit
  exact ⟨hall, hlen, assembleWith_length h⟩

/-- Settles O60: the two texts, assembled. -/
theorem sourceScenariosAssemble : Obligations.SourceScenariosAssemble := by
  unfold Obligations.SourceScenariosAssemble
  decide

end Sys2Proof.Machine
end

section
/-! SUPPORT. The canonical text of an instruction (R124), phase by phase: it is its own stripped line, its
tokens are the mnemonics, and the decimal digits of a constant read as the constant. -/

namespace Sys2Proof.Machine

/-! ### A text of one line -/

/-- A character that stripping leaves and that starts no comment (R106). -/
def keptByStrip (c : Char) : Bool := c != '/' && c != ' '

theorem beforeComment_of_no_slash {t : Text} (h : ∀ c ∈ t, c ≠ '/') : beforeComment t = t := by
  induction t with
  | nil => rfl
  | cons c rest ih =>
    obtain ⟨hc, hrest⟩ := List.forall_mem_cons.mp h
    rw [beforeComment, if_neg fun hslash => hc hslash.1, ih hrest]

theorem strip_of_kept {t : Text} (h : t.all keptByStrip = true) : strip t = t := by
  simp only [List.all_eq_true, keptByStrip, Bool.and_eq_true, bne_iff_ne] at h
  rw [strip, beforeComment_of_no_slash fun c hc => (h c hc).1]
  exact List.filter_eq_self.mpr fun c hc => bne_iff_ne.mpr (h c hc).2

theorem clean_singleton {t : Text} (h : t.all keptByStrip = true) (hne : t ≠ []) : clean [t] = [⟨t, t⟩] := by
  simp [clean, strip_of_kept h, hne]

/-- A compute line by itself assembles to what it parses to (R105). -/
theorem assemble_compute {t : Text} {i : Instr} (hkept : t.all keptByStrip = true) (hne : t ≠ [])
    (hkind : lineKind t = .compute) (hparse : parseCompute Config.asmDestLookupQuirk .fresh 0 ⟨t, t⟩ = .ok i) :
    assemble [t] = .ok ([i], .fresh) := by
  simp [assemble, assembleWith, clean_singleton hkept hne, bindLabels, bindVariables, emit, hkind, hparse]

/-! ### Mnemonics (R116 to R118) -/

theorem parseDest_text (dest : Dest) : parseDest (Dest.text dest) = some dest := by
  cases dest <;> decide

theorem parseJump_text (jump : Jump) : parseJump (Jump.text jump) = some jump := by
  cases jump <;> decide

theorem parseComp_text (c : Comp) : parseComp (Comp.text c) = some c := by
  cases c <;> decide

theorem computeOf_text (dest : Dest) (c : Comp) (jump : Jump) :
    computeOf (Dest.text dest) (Comp.text c) (Jump.text jump) = some (.ofComp c dest jump) := by
  rw [computeOf, parseDest_text, parseComp_text, parseJump_text]

/-- A token character: no delimiter, and nothing that stripping or the line's kind looks at. -/
def tokenChar (c : Char) : Bool := keptByStrip c && !isDelimiter c && c != '@' && c != '('

theorem Dest.text_tokenChar (dest : Dest) : (Dest.text dest).all tokenChar = true := by
  cases dest <;> decide

theorem Comp.text_tokenChar (c : Comp) : (Comp.text c).all tokenChar = true := by
  cases c <;> decide

theorem Jump.text_tokenChar (jump : Jump) : (Jump.text jump).all tokenChar = true := by
  cases jump <;> decide

theorem Comp.text_ne_nil (c : Comp) : Comp.text c ≠ [] := by
  cases c <;> decide

theorem Dest.text_ne_nil {dest : Dest} (h : dest ≠ .noDest) : Dest.text dest ≠ [] := by
  revert h; cases dest <;> decide

theorem Jump.text_ne_nil {jump : Jump} (h : jump ≠ .noJump) : Jump.text jump ≠ [] := by
  revert h; cases jump <;> decide

/-! ### Tokens (R115) -/

theorem splitTokens_last {tok : Text} (h : tok.all tokenChar = true) : splitTokens tok = [(tok, none)] := by
  induction tok with
  | nil => rfl
  | cons c rest ih =>
    rw [List.all_cons, Bool.and_eq_true] at h
    have hc : isDelimiter c = false := by simp_all [tokenChar]
    simp [splitTokens, hc, ih h.2]

theorem splitTokens_append {tok : Text} (h : tok.all tokenChar = true) {sep : Char} (hsep : isDelimiter sep = true)
    (more : Text) : splitTokens (tok ++ sep :: more) = (tok, some sep) :: splitTokens more := by
  induction tok with
  | nil => simp [splitTokens, hsep]
  | cons c rest ih =>
    rw [List.all_cons, Bool.and_eq_true] at h
    have hc : isDelimiter c = false := by simp_all [tokenChar]
    simp [splitTokens, hc, ih h.2]

/-- A text that begins with a token is a compute line (R107). -/
theorem lineKind_token {tok : Text} (h : tok.all tokenChar = true) (hne : tok ≠ []) (more : Text) :
    lineKind (tok ++ more) = .compute := by
  cases tok with
  | nil => exact absurd rfl hne
  | cons c rest =>
    have hc : c ≠ '@' ∧ c ≠ '(' := by simp_all [tokenChar]
    simp [lineKind, hc]

theorem tokenChar_kept {tok : Text} (h : tok.all tokenChar = true) : tok.all keptByStrip = true := by
  simp_all [tokenChar]

/-- A text of kept characters that begins with a token assembles to what its tokens name. -/
theorem assemble_tokens {tok more : Text} {i : Instr} (htok : tok.all tokenChar = true) (hne : tok ≠ [])
    (hmore : more.all keptByStrip = true)
    (hparse : parseCompute Config.asmDestLookupQuirk .fresh 0 ⟨tok ++ more, tok ++ more⟩ = .ok i) :
    assemble [tok ++ more] = .ok ([i], .fresh) := by
  refine assemble_compute ?_ (by simp [hne]) (lineKind_token htok hne more) hparse
  rw [List.all_append, tokenChar_kept htok, hmore, Bool.and_self]

/-! The four shapes of a compute line, with every written part non-empty (R115). -/

section shapes
variable {quirk : Bool} {t : SymbolTable} {k : Nat} {l : CleanLine} {x y z : Text} {i : Instr}

theorem parseCompute_comp (hl : splitTokens l.text = [(x, none)]) (h : computeOf [] x [] = some i) :
    parseCompute quirk t k l = .ok i := by
  simp [parseCompute, hl, h]

theorem parseCompute_jump (hl : splitTokens l.text = [(x, some ';'), (y, none)]) (hx : x ≠ []) (hy : y ≠ [])
    (h : computeOf [] x y = some i) : parseCompute quirk t k l = .ok i := by
  simp [parseCompute, hl, hx, hy, h]

theorem parseCompute_dest (hl : splitTokens l.text = [(x, some '='), (y, none)]) (hx : x ≠ []) (hy : y ≠ [])
    (h : computeOf x y [] = some i) : parseCompute quirk t k l = .ok i := by
  simp [parseCompute, hl, hx, hy, h]

theorem parseCompute_full (hl : splitTokens l.text = [(x, some '='), (y, some ';'), (z, none)]) (hx : x ≠ [])
    (hy : y ≠ []) (hz : z ≠ []) (h : computeOf x y z = some i) : parseCompute false t k l = .ok i := by
  simp [parseCompute, hl, hx, hy, hz, h]

end shapes

/-- The canonical text of a C-instruction, by which of its two optional parts are written. -/
theorem assemble_computeText (dest : Dest) (c : Comp) (jump : Jump) :
    assemble [(if dest = .noDest then [] else Dest.text dest ++ ['=']) ++ Comp.text c ++
      (if jump = .noJump then [] else ';' :: Jump.text jump)] = .ok ([.ofComp c dest jump], .fresh) := by
  have hc := Comp.text_tokenChar c
  have hd := Dest.text_tokenChar dest
  have hj := Jump.text_tokenChar jump
  have hcne := Comp.text_ne_nil c
  have hof := computeOf_text dest c jump
  have hsemi : keptByStrip ';' = true ∧ isDelimiter ';' = true := by decide
  have heq : keptByStrip '=' = true ∧ isDelimiter '=' = true := by decide
  by_cases hdest : dest = .noDest <;> by_cases hjump : jump = .noJump
  · subst hdest hjump
    exact assemble_tokens hc hcne rfl (parseCompute_comp (by simp [splitTokens_last hc]) hof)
  · subst hdest
    rw [if_pos rfl, if_neg hjump, List.nil_append]
    refine assemble_tokens hc hcne (by simp [hsemi, tokenChar_kept hj]) ?_
    exact parseCompute_jump (by rw [splitTokens_append hc hsemi.2, splitTokens_last hj]) hcne
      (Jump.text_ne_nil hjump) hof
  · subst hjump
    rw [if_neg hdest, if_pos rfl, List.append_nil, List.append_assoc]
    refine assemble_tokens hd (Dest.text_ne_nil hdest) (by simp [heq, tokenChar_kept hc]) ?_
    exact parseCompute_dest (by rw [List.singleton_append, splitTokens_append hd heq.2, splitTokens_last hc])
      (Dest.text_ne_nil hdest) hcne hof
  · rw [if_neg hdest, if_neg hjump, List.append_assoc, List.append_assoc]
    refine assemble_tokens hd (Dest.text_ne_nil hdest)
      (by simp [heq, hsemi, tokenChar_kept hc, tokenChar_kept hj]) ?_
    refine parseCompute_full ?_ (Dest.text_ne_nil hdest) hcne (Jump.text_ne_nil hjump) hof
    rw [List.singleton_append, splitTokens_append hd heq.2, splitTokens_append hc hsemi.2, splitTokens_last hj]

/-! ### Decimal numbers (R109, R124) -/

theorem digitChar_toNat (n : Nat) : (Char.ofNat (48 + n % 10)).toNat = 48 + n % 10 := by
  have h : n % 10 < 10 := Nat.mod_lt _ (by decide)
  interval_cases n % 10 <;> rfl

theorem digitValue_digitChar (n : Nat) : digitValue (Char.ofNat (48 + n % 10)) = some (n % 10) := by
  rw [digitValue, digitChar_toNat, if_pos (by omega), Nat.add_sub_cancel_left]

theorem decimalDigits_succ (fuel n : Nat) (acc : Text) : decimalDigits (fuel + 1) n acc =
    if n / 10 = 0 then Char.ofNat (48 + n % 10) :: acc
    else decimalDigits fuel (n / 10) (Char.ofNat (48 + n % 10) :: acc) := rfl

theorem digitsValue_digitChar (m n : Nat) (rest : Text) :
    digitsValue m (Char.ofNat (48 + n % 10) :: rest) = digitsValue (m * 10 + n % 10) rest := by
  simp only [digitsValue, digitValue_digitChar]

/-- The digits of `n` in front of a text read as `n` before it, if there is room for all of them. -/
theorem digitsValue_decimalDigits (fuel : Nat) {n : Nat} (acc : Text) (hn : n < 10 ^ fuel) :
    digitsValue 0 (decimalDigits fuel n acc) = digitsValue n acc := by
  induction fuel generalizing n acc with
  | zero =>
    obtain rfl : n = 0 := by omega
    rfl
  | succ fuel ih =>
    rw [decimalDigits_succ]
    split
    case isTrue hdiv =>
      rw [digitsValue_digitChar]
      exact congrArg (digitsValue · acc) (by omega)
    case isFalse =>
      rw [ih _ (Nat.div_lt_of_lt_mul (by rw [← Nat.pow_succ']; exact hn)), digitsValue_digitChar]
      exact congrArg (digitsValue · acc) (by omega)

/-- A decimal digit. -/
def isDigitChar (c : Char) : Bool := 48 ≤ c.toNat && c.toNat ≤ 57

theorem decimalDigits_all (fuel n : Nat) {acc : Text} (h : acc.all isDigitChar = true) :
    (decimalDigits fuel n acc).all isDigitChar = true := by
  induction fuel generalizing n acc with
  | zero => exact h
  | succ fuel ih =>
    have hdigit : isDigitChar (Char.ofNat (48 + n % 10)) = true := by
      simp only [isDigitChar, digitChar_toNat, Bool.and_eq_true, decide_eq_true_eq]
      omega
    have hacc : (Char.ofNat (48 + n % 10) :: acc).all isDigitChar = true := by
      rw [List.all_cons, hdigit, h, Bool.and_self]
    rw [decimalDigits_succ]
    split
    · exact hacc
    · exact ih _ hacc

theorem decimalDigits_ne_nil (fuel n : Nat) {acc : Text} (h : acc ≠ []) : decimalDigits fuel n acc ≠ [] := by
  induction fuel generalizing n acc with
  | zero => exact h
  | succ fuel ih =>
    rw [decimalDigits_succ]
    split
    · exact List.cons_ne_nil _ acc
    · exact ih _ (List.cons_ne_nil _ acc)

theorem decimalText_all (w : Word) : (decimalText w).all isDigitChar = true :=
  decimalDigits_all 5 w.u16 rfl

theorem decimalText_ne_nil (w : Word) : decimalText w ≠ [] := by
  rw [decimalText, decimalDigits_succ]
  split
  · exact List.cons_ne_nil _ []
  · exact decimalDigits_ne_nil 4 _ (List.cons_ne_nil _ [])

/-- The decimal text of a word is a literal of its value (R109). -/
theorem parseLiteral_decimalText (w : Word) : parseLiteral (decimalText w) = some w := by
  have hvalue : digitsValue 0 (decimalText w) = some w.toNat :=
    digitsValue_decimalDigits 5 [] (Nat.lt_trans w.isLt (by decide))
  have hle : w.toNat ≤ 65535 := Nat.le_of_lt_succ w.isLt
  unfold parseLiteral
  split
  case h_1 h => exact absurd h (decimalText_ne_nil w)
  case h_2 => simp [hvalue, hle]

theorem isDigitChar_kept {c : Char} (h : isDigitChar c = true) : keptByStrip c = true ∧ c.isWhitespace = false := by
  have hne : ∀ d : Char, isDigitChar d = false → c ≠ d := by
    rintro d hd rfl
    simp [h] at hd
  simp [keptByStrip, Char.isWhitespace, hne '/' rfl, hne ' ' rfl, hne '\t' rfl, hne '\r' rfl, hne '\n' rfl]

/-- No seeded name begins with a digit (R108). -/
theorem fresh_lookup_digits {name : Text} (h : name.all isDigitChar = true) :
    SymbolTable.fresh.lookup name = none := by
  have hseeded : ∀ e ∈ SymbolTable.fresh.entries, e.1.all isDigitChar = false := by decide
  have hfind : SymbolTable.fresh.entries.find? (fun e => e.1 == name) = none := by
    refine List.find?_eq_none.mpr fun e he heq => ?_
    rw [← eq_of_beq heq, hseeded e he] at h
    exact Bool.false_ne_true h
  rw [SymbolTable.lookup, hfind]
  rfl

theorem SymbolTable.lookup_bind_new {t : SymbolTable} {name : Text} (h : t.lookup name = none) (addr : Word) :
    (t.bind name addr).lookup name = some addr := by
  have hfind : t.entries.find? (fun e => e.1 == name) = none := by simpa [SymbolTable.lookup] using h
  simp [SymbolTable.lookup, SymbolTable.bind, List.find?_append, hfind]

/-- An address line by itself, whose operand is digits of an unbound literal, loads the literal (R109, R113). -/
theorem assemble_address {operand : Text} {v : Word} (hdigits : operand.all isDigitChar = true)
    (hlit : parseLiteral operand = some v) (hv : v.u16 < 32768) :
    assemble ['@' :: operand] = .ok ([.atValue v], SymbolTable.fresh.bind operand v) := by
  have hne : operand ≠ [] := by
    rintro rfl
    simp [parseLiteral] at hlit
  have hkept : ('@' :: operand).all keptByStrip = true := by
    simp only [List.all_eq_true] at hdigits
    simp only [List.all_cons, Bool.and_eq_true, List.all_eq_true]
    exact ⟨rfl, fun c hc => (isDigitChar_kept (hdigits c hc)).1⟩
  have hspace : hasOtherSpace ('@' :: operand) = false := by
    simp only [List.all_eq_true] at hdigits
    simp only [hasOtherSpace, List.any_cons, Bool.or_eq_false_iff, List.any_eq_false]
    exact ⟨rfl, fun c hc => by simp [isDigitChar_kept (hdigits c hc)]⟩
  have hnew := fresh_lookup_digits hdigits
  have hbind : SymbolTable.fresh.insertIfAbsent operand = SymbolTable.fresh.bind operand v := by
    simp [SymbolTable.insertIfAbsent, hnew, hlit]
  have hparse : parseAddress (SymbolTable.fresh.bind operand v) 0 ⟨'@' :: operand, '@' :: operand⟩ operand =
      .ok (.atValue v) := by
    rw [parseAddress, SymbolTable.lookup_bind_new hnew]
    exact if_neg (by rw [(getLsbD_15_eq_false_iff v).mpr hv]; exact Bool.false_ne_true)
  have hkind : lineKind ('@' :: operand) = .address operand := rfl
  have hclean := clean_singleton hkept (List.cons_ne_nil '@' operand)
  simp [assemble, assembleWith, hclean, bindLabels, bindVariables, emit, hkind, hspace, hne, hbind, hparse]

/-- Settles O58: by the four variants; `NONE` and `LABEL` have no text. -/
theorem canonicalTextAssembles : Obligations.CanonicalTextAssembles := by
  unfold Obligations.CanonicalTextAssembles
  intro i text hwf htext
  rcases Instr.eq_cases i with ⟨c, dest, jump, rfl⟩ | ⟨v, rfl⟩ | rfl | rfl
  · rw [instrText, Instr.typed_ofComp] at htext
    obtain rfl := Option.some.inj htext
    exact ⟨_, assemble_computeText dest c jump⟩
  · obtain rfl := Option.some.inj htext
    have hv : v.u16 < 32768 := by
      rw [← getLsbD_15_eq_false_iff, ← BitVec.msb_eq_getLsbD_last]
      simpa [Instr.wf] using hwf
    exact ⟨_, assemble_address (decimalText_all v) (parseLiteral_decimalText v) hv⟩
  · simp [instrText, Instr.typed] at htext
  · simp [instrText, Instr.typed] at htext

end Sys2Proof.Machine
end

section
/-! SUPPORT. The host's operations: loads, resets, the keyboard, the latch, and the screen it reads. -/

namespace Sys2Proof.Machine

/-! ### Loads (R264) -/

theorem installProgram_loaded (prog : List Instr) (table : SymbolTable) (s : State) :
    HoldsProgram (installProgram prog table s) prog ∧ LoadedOver s (installProgram prog table s) :=
  ⟨fun i => layOut_read prog (Nat.zero_le i), rfl, rfl, rfl, rfl, rfl, rfl, rfl⟩

theorem programFits_iff (prog : List Instr) : programFits prog = true ↔ prog.length ≤ 32767 := by
  simp [programFits]

theorem loadInstrs_of_fits {prog : List Instr} (h : prog.length ≤ 32767) (s : State) :
    loadInstrs prog s = some (installProgram prog .fresh s) :=
  if_pos ((programFits_iff prog).mpr h)

/-- Settles O53: the installed program, or the refusal of one that is too long. -/
theorem loadInstallsProgram : Obligations.LoadInstallsProgram := by
  unfold Obligations.LoadInstallsProgram
  intro prog s
  refine ⟨fun hfits => ⟨_, loadInstrs_of_fits hfits s, installProgram_loaded ..⟩, fun hlong => ?_⟩
  have hrefused : loadInstrs prog s = none :=
    if_neg (mt (programFits_iff prog).mp (Nat.not_le.mpr hlong))
  rw [hostStep, hrefused, Option.getD_none]

theorem decodeAll_of_illegal {image : List Word} {w : Word} (hmem : w ∈ image) (hw : decode w = .illegal w) :
    decodeAll image = none := by
  induction image with
  | nil => simp at hmem
  | cons x rest ih =>
    rw [decodeAll]
    rcases List.mem_cons.mp hmem with rfl | hmem
    · simp [hw]
    · simp [ih hmem]

theorem decodeAll_of_map {image : List Word} {prog : List Instr} (h : image.map decode = prog.map Slot.instr) :
    decodeAll image = some prog := by
  induction image generalizing prog with
  | nil =>
    obtain rfl : prog = [] := by simpa using h.symm
    rfl
  | cons w rest ih =>
    cases prog with
    | nil => simp at h
    | cons i more =>
      obtain ⟨hw, hrest⟩ := List.cons.inj h
      simp [decodeAll, hw, ih hrest]

/-- Settles O54: `decodeAll` fails at the first illegal word, and else answers the decoded image. -/
theorem imageWithIllegalWordRefused : Obligations.ImageWithIllegalWordRefused := by
  unfold Obligations.ImageWithIllegalWordRefused
  refine fun image s => ⟨fun ⟨w, hmem, hw⟩ => ?_, fun prog hmap hlen => ?_⟩
  · rw [hostStep, loadWords, decodeAll_of_illegal hmem hw, Option.getD_none]
  · rw [loadWords, decodeAll_of_map hmap]
    exact ⟨_, loadInstrs_of_fits hlen s, installProgram_loaded ..⟩

/-- Settles O55: `loadText` installs what `assemble` answers. -/
theorem textLoadInstallsOrKeeps : Obligations.TextLoadInstallsOrKeeps := by
  unfold Obligations.TextLoadInstallsOrKeeps
  refine fun lines s => ⟨fun e herr => ?_, fun prog table hok => ?_⟩
  · simp only [hostStep, loadText, herr]
  · have hload : loadText lines s = .ok (installProgram prog table s) := by simp only [loadText, hok]
    obtain ⟨hholds, hover⟩ := installProgram_loaded prog table s
    exact ⟨_, hload, by simp only [hostStep, hload], hholds, hover, rfl⟩

/-! ### Resets, the keyboard and the latch -/

/-- Settles O44: the fields of the reset state; an empty array reads as its unlisted content. -/
theorem powerOnResetState : Obligations.PowerOnResetState := by
  unfold Obligations.PowerOnResetState
  refine ⟨rfl, rfl, rfl, fun b hb => ?_, fun i _ => rfl, rfl, rfl, rfl, by decide, rfl, rfl⟩
  exact memRead_resetRam .reset hb

/-- Settles O50: `resetRun` writes pc and the two latches. -/
theorem resetRunRestarts : Obligations.ResetRunRestarts := by
  unfold Obligations.ResetRunRestarts
  intro s
  rfl

/-- Settles O51: the keyboard write is a store at 24576. -/
theorem keyboardWriteChangesOneWord : Obligations.KeyboardWriteChangesOneWord := by
  unfold Obligations.KeyboardWriteChangesOneWord
  intro s code
  have hstep : hostStep (.writeKeyboard code) s = s.setRam 24576#16 code := rfl
  rw [hstep]
  refine ⟨?_, fun b hb => ?_, rfl⟩
  · rw [memRead_eq, if_pos (by decide), State.setRam_ram, Memory.read_write_same]
  · have hne : b ≠ 24576#16 := by
      rintro rfl
      exact hb rfl
    rw [memRead_eq, memRead_eq, State.setRam_ram, Memory.read_write_other _ _ hne]

theorem singleStep_cases (s : State) :
    singleStep s = s.clearStopped ∨ coreStep .single s.clearStopped = .next (singleStep s) := by
  unfold singleStep
  split
  case h_1 h => exact .inr h
  case h_2 => exact .inl rfl
  case h_3 => exact .inl rfl

/-- Settles O52: under a latch the core has no step, and no other operation writes it. -/
theorem faultStaysUntilHostClears : Obligations.FaultStaysUntilHostClears := by
  unfold Obligations.FaultStaysUntilHostClears
  intro s n code b hf
  refine ⟨?_, ?_, rfl, rfl, rfl, rfl⟩
  · exact batchSteps_of_ended (s := s.clearStopped) (by simp [State.runEnded, hf]) n
  · rcases singleStep_cases s with h | h
    · exact h
    · exact absurd (coreStep_next h).1 hf

/-! ### The screen (R61) -/

theorem pixelAddr_toNat (r : Fin 256) (c : Fin 512) : (pixelAddr r c).toNat = 16384 + 32 * r.val + c.val / 16 := by
  rw [pixelAddr, BitVec.toNat_ofNat]
  simp only [Config.screenBase]
  omega

theorem w16_pixelAddr (r : Fin 256) (c : Fin 512) :
    Word.w16 (16384 + 32 * r.val + c.val / 16 : Nat) = pixelAddr r c :=
  BitVec.ofInt_natCast ..

/-- The pixels of a row's first word are its 16 leftmost. -/
theorem pixelAddr_eq_rowStart {row : Nat} (hrow : row < 256) (r : Fin 256) (c : Fin 512) :
    pixelAddr r c = BitVec.ofNat 16 (16384 + 32 * row) ↔ r.val = row ∧ c.val < 16 := by
  rw [← BitVec.toNat_inj, pixelAddr_toNat, BitVec.toNat_ofNat]
  omega

/-- A store changes the pixels of its own word only. -/
theorem pixelBit_of_write {s t : State} {addr v : Word} (h : t.ram = Memory.write s.ram addr v) (r : Fin 256)
    (c : Fin 512) : pixelBit t r c = if pixelAddr r c = addr then v.getLsbD (c.val % 16) else pixelBit s r c := by
  unfold pixelBit
  split
  case isTrue haddr => rw [h, haddr, Memory.read_write_same]
  case isFalse haddr => rw [h, Memory.read_write_other _ _ haddr]

/-- A C-instruction with destination `M` and no jump stores its result at A, where A is an address. -/
theorem exec_ofComp_m_ram {c : Comp} {s t : State} (ha : s.a.toNat ≤ 24576) (h : exec (.ofComp c .m .noJump) s = .next t) :
    t.ram = Memory.write s.ram s.a (result Config.decQuirk c s) := by
  rw [exec_ofComp_of_reaches .noJump fun _ => ha] at h
  rw [← Host.Outcome.next.inj h, decidePc_ram, store_ram]
  rfl

/-- Settles O57: the address of a pixel as a number, and the two stores by `pixelBit_of_write`. -/
theorem pixelsTileTheScreen : Obligations.PixelsTileTheScreen := by
  unfold Obligations.PixelsTileTheScreen
  refine ⟨fun s r c => ?_, fun r c => ?_, fun r r' c c' haddr hbit => ?_, fun s t ha h r c => ?_, fun s t ha h r c => ?_⟩
  · have := pixelAddr_toNat r c
    rw [w16_pixelAddr, memRead_eq, if_pos (by omega)]
    exact ⟨rfl, rfl⟩
  · rw [Word.u16, pixelAddr_toNat]
    omega
  · have hnum := congrArg BitVec.toNat haddr
    rw [pixelAddr_toNat, pixelAddr_toNat] at hnum
    exact ⟨Fin.ext (by omega), Fin.ext (by omega)⟩
  · have hram := exec_ofComp_m_ram (c := .minusOne) (by rw [ha]; decide) h
    have hones : (result Config.decQuirk .minusOne s).getLsbD (c.val % 16) = true := by
      have hlt : c.val % 16 < 16 := Nat.mod_lt _ (by decide)
      show (0xFFFF#16).getLsbD (c.val % 16) = true
      interval_cases c.val % 16 <;> rfl
    rw [pixelBit_of_write hram, ha, hones]
    exact if_congr (pixelAddr_eq_rowStart (row := 0) (by decide) r c) rfl rfl
  · have hram := exec_ofComp_m_ram (c := .one) (by rw [ha]; decide) h
    have hone : (result Config.decQuirk .one s).getLsbD (c.val % 16) = decide (c.val % 16 = 0) := by
      show (1#16).getLsbD (c.val % 16) = decide (c.val % 16 = 0)
      simp
    rw [pixelBit_of_write hram, ha, hone]
    refine (if_congr (pixelAddr_eq_rowStart (row := 1) (by decide) r c) rfl rfl).trans ?_
    split
    case isTrue hrc => rw [Nat.mod_eq_of_lt hrc.2]
    case isFalse => rfl

end Sys2Proof.Machine
end

section
/-! SUPPORT. What every step and every host operation keeps: the invariant, and that no slot is illegal. -/

namespace Sys2Proof.Machine

/-! ### One core step -/

/-- A fault raised while a slot is executed leaves everything else, pc too (R228). -/
theorem execSlot_of_faulted {x : Slot} {s t : State} (h : execSlot x s = .next t) (hs : s.fault = .noFault)
    (ht : t.fault ≠ .noFault) : t = s.raise t.fault := by
  cases x with
  | instr i =>
    rcases exec_fault h with hf | rfl
    · exact absurd (hf.trans hs) ht
    · rfl
  | illegal w =>
    obtain rfl := Host.Outcome.next.inj h
    rfl

theorem execSlot_ram_wf {x : Slot} {s t : State} (h : execSlot x s = .next t) (hs : Memory.wf s.ram = true) :
    Memory.wf t.ram = true := by
  cases x with
  | instr i =>
    rcases exec_ram h with hram | ⟨⟨v, hram⟩, ha, -⟩
    · rw [hram]
      exact hs
    · rw [hram]
      exact Memory.wf_write hs ((dataAddrValid_iff s.a).mpr ha) v
  | illegal w =>
    obtain rfl := Host.Outcome.next.inj h
    exact hs

/-- Whatever the executed slot did to pc, the core step leaves a slot (R28): a faulting instruction keeps pc,
and the bound check clamps every other. -/
theorem afterExec_slotValid (mode : StepMode) {x : Slot} {s t : State} (h : execSlot x s = .next t)
    (hs : s.fault = .noFault) (hpc : slotValid s.pc = true) : slotValid (afterExec mode t).pc = true := by
  by_cases ht : t.fault = .noFault
  · rw [afterExec_of_not_faulted mode ht, checkBreakpoints_pc]
    exact checkBound_slotValid t
  · rw [afterExec_of_faulted mode ht, execSlot_of_faulted h hs ht]
    exact hpc

theorem coreStep_inv {mode : StepMode} {s u : State} (hinv : State.Inv s) (h : coreStep mode s = .next u) :
    State.Inv u := by
  obtain ⟨hram, himem, hbp, hsym, -⟩ := hinv
  obtain ⟨hf, hpc, t, ht, rfl⟩ := coreStep_next h
  obtain ⟨htimem, htbp, -, htsym⟩ := execSlot_frame ht
  refine ⟨?_, ?_, ?_, ?_, afterExec_slotValid mode ht hf hpc⟩
  · rw [afterExec_ram]
    exact execSlot_ram_wf ht hram
  · rw [afterExec_imem, htimem]
    exact himem
  · rw [afterExec_bp, htbp]
    exact hbp
  · rw [afterExec_symbols, htsym]
    exact hsym

/-- Settles O46: `step` is a core step, and the invariant does not speak of `stopped`. -/
theorem stepKeepsInvariant : Obligations.StepKeepsInvariant := by
  unfold Obligations.StepKeepsInvariant
  intro s t hinv h
  exact coreStep_inv (s := s.clearStopped) hinv h

/-! ### The host's operations (R250) -/

/-- What the core's steps keep and clearing `stopped` keeps, a batch and a single step keep. -/
theorem runBatch_induction {P : State → Prop} (hclear : ∀ s, P s → P s.clearStopped)
    (hstep : ∀ mode s t, P s → coreStep mode s = .next t → P t) (n : Nat) {s : State} (hs : P s) :
    P (runBatch n s) ∧ P (singleStep s) := by
  constructor
  · exact batchSteps_induction (hstep .batched) n (hclear s hs)
  · rcases singleStep_cases s with h | h
    · rw [h]
      exact hclear s hs
    · exact hstep .single _ _ (hclear s hs) h

/-- The three kinds of load (R264). -/
def HostOp.isLoad : HostOp → Bool
  | .loadInstrs _ | .loadWords _ | .loadText _ => true
  | .powerOn | .resetRam | .resetRun | .batch _ | .singleStep => false
  | .writeKeyboard _ | .insertBreakpoint _ | .removeBreakpoint _ => false

theorem loadInstrs_cases (prog : List Instr) (s : State) : loadInstrs prog s = none ∨
    programFits prog = true ∧ loadInstrs prog s = some (installProgram prog .fresh s) := by
  rw [loadInstrs]
  split
  case isTrue hfits => exact .inr ⟨hfits, rfl⟩
  case isFalse => exact .inl rfl

/-- A load is refused, or installs a program that fits and a table in form. -/
theorem hostLoad_cases {op : HostOp} (hop : op.isLoad = true) (s : State) : hostStep op s = s ∨
    ∃ prog table, programFits prog = true ∧ SymbolTable.wf table = true ∧
      hostStep op s = installProgram prog table s := by
  cases op with
  | loadInstrs prog =>
    rcases loadInstrs_cases prog s with h | ⟨hfits, h⟩
    · exact .inl (by rw [hostStep, h, Option.getD_none])
    · exact .inr ⟨prog, .fresh, hfits, SymbolTable.wf_fresh, by rw [hostStep, h, Option.getD_some]⟩
  | loadWords image =>
    cases hdec : decodeAll image with
    | none => exact .inl (by rw [hostStep, loadWords, hdec, Option.getD_none])
    | some prog =>
      rcases loadInstrs_cases prog s with h | ⟨hfits, h⟩
      · exact .inl (by simp only [hostStep, loadWords, hdec, h, Option.getD_none])
      · exact .inr ⟨prog, .fresh, hfits, SymbolTable.wf_fresh, by simp only [hostStep, loadWords, hdec, h, Option.getD_some]⟩
  | loadText lines =>
    cases hasm : assemble lines with
    | error e => exact .inl (by simp only [hostStep, loadText, hasm])
    | ok answer =>
      obtain ⟨prog, table⟩ := answer
      refine .inr ⟨prog, table, (programFits_iff prog).mpr (assembleWith_length hasm), assembleWith_table_wf hasm, ?_⟩
      simp only [hostStep, loadText, hasm]
  | powerOn | resetRam | resetRun | batch | singleStep => simp [HostOp.isLoad] at hop
  | writeKeyboard | insertBreakpoint | removeBreakpoint => simp [HostOp.isLoad] at hop

/-- What every host operation keeps, a session keeps. -/
theorem session_induction {P : State → Prop} (hop : ∀ op s, P s → P (hostStep op s)) (ops : List HostOp) {s : State}
    (hs : P s) : P (session ops s) := by
  induction ops generalizing s with
  | nil => exact hs
  | cons op rest ih => exact ih (hop op s hs)

theorem installProgram_inv {s : State} (hinv : State.Inv s) {prog : List Instr} {table : SymbolTable}
    (hfits : programFits prog = true) (htable : SymbolTable.wf table = true) :
    State.Inv (installProgram prog table s) := by
  obtain ⟨hram, -, hbp, -, hpc⟩ := hinv
  exact ⟨hram, layOut_wf hfits, hbp, htable, hpc⟩

/-- Settles O45: each part of the invariant, evaluated. -/
theorem resetMeetsInvariant : Obligations.ResetMeetsInvariant := by
  unfold Obligations.ResetMeetsInvariant
  exact ⟨Memory.wf_reset, InstrMemory.wf_reset, rfl, SymbolTable.wf_fresh, rfl⟩

theorem hostStep_inv (op : HostOp) {s : State} (hinv : State.Inv s) : State.Inv (hostStep op s) := by
  have hload (hop : op.isLoad = true) : State.Inv (hostStep op s) := by
    rcases hostLoad_cases hop s with h | ⟨prog, table, hfits, htable, h⟩
    · rw [h]
      exact hinv
    · rw [h]
      exact installProgram_inv hinv hfits htable
  have hrun (n : Nat) := runBatch_induction (P := State.Inv) (fun s hs => hs) (fun _ _ _ => coreStep_inv) n hinv
  obtain ⟨hram, himem, hbp, hsym, hpc⟩ := hinv
  cases op with
  | powerOn => exact resetMeetsInvariant
  | loadInstrs | loadWords | loadText => exact hload rfl
  | resetRam => exact ⟨rfl, himem, hbp, hsym, hpc⟩
  | resetRun => exact ⟨hram, himem, hbp, hsym, rfl⟩
  | batch n => exact (hrun n).1
  | singleStep => exact (hrun 0).2
  | writeKeyboard code => exact ⟨Memory.wf_write hram (by decide) code, himem, hbp, hsym, hpc⟩
  | insertBreakpoint b => exact ⟨hram, himem, breakpointsWf_insert hbp b, hsym, hpc⟩
  | removeBreakpoint b => exact ⟨hram, himem, breakpointsWf_remove hbp b, hsym, hpc⟩

/-- Settles O47: every operation keeps the invariant. -/
theorem sessionKeepsInvariant : Obligations.SessionKeepsInvariant := by
  unfold Obligations.SessionKeepsInvariant
  intro ops s
  exact session_induction (fun op _ => hostStep_inv op) ops

/-! ### No illegal word is executed (R97, R231) -/

/-- No slot holds an illegal word and none was executed. -/
def NeverIllegal (s : State) : Prop := NoIllegalSlot s ∧ ∀ w, s.fault ≠ .illegalInstruction w

theorem fetch_of_noIllegalSlot {s : State} (h : NoIllegalSlot s) : ∃ i, fetch s = .instr i := by
  cases hx : fetch s with
  | instr i => exact ⟨i, rfl⟩
  | illegal w =>
    rcases Cells.mem_of_read (dflt := Slot.instr .noneOp) s.imem s.pc.u16 with hmem | hdflt
    · exact absurd hx (h _ hmem w)
    · exact absurd (hdflt.symm.trans hx) nofun

/-- A layout lists instructions only. -/
theorem layOut_instr {prog : List Instr} {k : Nat} {c : Nat × Slot} (h : c ∈ layOut k prog) : ∃ i, c.2 = .instr i := by
  induction prog generalizing k with
  | nil => simp [layOut] at h
  | cons x rest ih =>
    by_cases hx : x = .noneOp
    · subst hx
      exact ih (k := k + 1) h
    · rw [layOut.eq_3 _ _ _ hx] at h
      rcases List.mem_cons.mp h with rfl | h
      · exact ⟨x, rfl⟩
      · exact ih h

theorem coreStep_neverIllegal {mode : StepMode} {s u : State} (hs : NeverIllegal s) (h : coreStep mode s = .next u) :
    NeverIllegal u := by
  obtain ⟨hslots, hfault⟩ := hs
  obtain ⟨-, -, t, ht, rfl⟩ := coreStep_next h
  obtain ⟨htimem, -⟩ := execSlot_frame ht
  obtain ⟨i, hi⟩ := fetch_of_noIllegalSlot hslots
  rw [hi] at ht
  refine ⟨?_, ?_⟩
  · rw [NoIllegalSlot, afterExec_imem, htimem]
    exact hslots
  · rw [afterExec_fault]
    rcases exec_fault ht with hf | rfl
    · rw [hf]
      exact hfault
    · exact fun w => nofun

theorem hostStep_neverIllegal (op : HostOp) {s : State} (hs : NeverIllegal s) : NeverIllegal (hostStep op s) := by
  have hload (hop : op.isLoad = true) : NeverIllegal (hostStep op s) := by
    rcases hostLoad_cases hop s with h | ⟨prog, table, -, -, h⟩
    · rw [h]
      exact hs
    · rw [h]
      refine ⟨fun c hc w hw => ?_, fun w => nofun⟩
      obtain ⟨i, hi⟩ := layOut_instr hc
      simp [hi] at hw
  have hrun (n : Nat) :=
    runBatch_induction (P := NeverIllegal) (fun s hs => hs) (fun _ _ _ => coreStep_neverIllegal) n hs
  obtain ⟨hslots, hfault⟩ := hs
  cases op with
  | powerOn => exact ⟨fun c hc => absurd hc List.not_mem_nil, fun w => FaultLatch.noConfusion⟩
  | loadInstrs | loadWords | loadText => exact hload rfl
  | resetRam => exact ⟨hslots, hfault⟩
  | resetRun => exact ⟨hslots, fun w => nofun⟩
  | batch n => exact (hrun n).1
  | singleStep => exact (hrun 0).2
  | writeKeyboard code => exact ⟨hslots, hfault⟩
  | insertBreakpoint b => exact ⟨hslots, hfault⟩
  | removeBreakpoint b => exact ⟨hslots, hfault⟩

/-- Settles O48: every operation keeps `NeverIllegal`. -/
theorem sessionNeverIllegal : Obligations.SessionNeverIllegal := by
  unfold Obligations.SessionNeverIllegal
  intro ops s hslots hfault
  exact session_induction (P := NeverIllegal) (fun op _ => hostStep_neverIllegal op) ops ⟨hslots, hfault⟩

end Sys2Proof.Machine
end
